-- ==== Sys2Proof/Word.lean ====
section
/-! DEFINITION. The word types of the core (10_state.md R20, R23, R26; 30_encoding.md R71). -/

namespace Sys2Proof

/-- A general register, a timer or a memory byte: 8 bits, unsigned (R20, R29, R34). -/
abbrev Byte := BitVec 8

/-- The program counter, I, a stack entry or an instruction word: 16 bits, unsigned (R23, R26, R27, R70). -/
abbrev Word := BitVec 16

/-- A 4-bit field of an instruction word: a register index x or y, a sprite height n, or bits the
decoder does not examine (R71, R79). -/
abbrev Nibble := BitVec 4

/-- The 12-bit absolute address nnn (R71, R73). -/
abbrev Addr12 := BitVec 12

end Sys2Proof
end

