-- ==== Sys2Proof/Syntax.lean ====
section
/-! DEFINITION. The instruction set: one constructor per row of spec/opcode_table.json (30_encoding.md R75). -/

namespace Sys2Proof

/-- The 32 instructions of R75, in the opcode table's order, with their operand fields (R71, R72).
The last field of `cls`, `ret`, `seReg` and `sneReg` (named `z`) holds the bits R79 calls don't-care
(bits 11:8 of 00E0 and 00EE, bits 3:0 of 5xy0 and 9xy0): they choose nothing, and are kept so that an
instruction determines its whole word, which a fatal error records (R200). DESIGN CHOICE; safe (log entry 4). -/
inductive Instr where
  | cls (z : Nibble)
  | ret (z : Nibble)
  | jp (nnn : Addr12)
  | call (nnn : Addr12)
  | seImm (x : Nibble) (kk : Byte)
  | sneImm (x : Nibble) (kk : Byte)
  | seReg (x y z : Nibble)
  | ldImm (x : Nibble) (kk : Byte)
  | addImm (x : Nibble) (kk : Byte)
  | ldReg (x y : Nibble)
  | or (x y : Nibble)
  | and (x y : Nibble)
  | xor (x y : Nibble)
  | addReg (x y : Nibble)
  | sub (x y : Nibble)
  | shr (x y : Nibble)
  | subn (x y : Nibble)
  | shl (x y : Nibble)
  | sneReg (x y z : Nibble)
  | ldI (nnn : Addr12)
  | rnd (x : Nibble) (kk : Byte)
  | drw (x y n : Nibble)
  | skp (x : Nibble)
  | sknp (x : Nibble)
  | ldVDt (x : Nibble)
  | ldDtV (x : Nibble)
  | ldStV (x : Nibble)
  | addI (x : Nibble)
  | ldF (x : Nibble)
  | ldB (x : Nibble)
  | ldMemV (x : Nibble)
  | ldVMem (x : Nibble)
  deriving DecidableEq, Repr

end Sys2Proof
end

