-- ==== Sys2Proof/Decode.lean ====
section
/-! DEFINITION. The fields of an instruction word, the two-level decoder and the encoder
(30_encoding.md R71 to R80). -/

namespace Sys2Proof

/-- Why a decoder answers no instruction. -/
inductive DecodeReject where
  /-- The word matches no row of the opcode map (R78): the core raises `DecodeError` with it. Safe: the spec's own. -/
  | noInstruction (w : Word)
  /-- Fewer than two bytes were given (R70: every instruction is one 16-bit word). No step of the core raises
  this: a fetch always has two bytes or is out of bounds (R84). Safe. -/
  | truncated
  deriving DecidableEq, Repr

/-! ### Fields (R71) -/

/-- The class, bits 15:12. -/
def opClass (w : Word) : Nibble := w.extractLsb' 12 4
/-- Field x, bits 11:8. -/
def fieldX (w : Word) : Nibble := w.extractLsb' 8 4
/-- Field y, bits 7:4. -/
def fieldY (w : Word) : Nibble := w.extractLsb' 4 4
/-- Field n, bits 3:0. -/
def fieldN (w : Word) : Nibble := w.extractLsb' 0 4
/-- Field kk, bits 7:0. -/
def fieldKk (w : Word) : Byte := w.extractLsb' 0 8
/-- Field nnn, bits 11:0. -/
def fieldNnn (w : Word) : Addr12 := w.extractLsb' 0 12

/-- The word of two bytes in memory order: the byte at the lower address is the high byte (20_memory.md R54, D6). -/
def wordOfBytes (hi lo : Byte) : Word := hi ++ lo
/-- The byte of a word that stands at the lower address (R54). -/
def highByte (w : Word) : Byte := w.extractLsb' 8 8
/-- The byte of a word that stands at the higher address (R54). -/
def lowByte (w : Word) : Byte := w.extractLsb' 0 8

/-! ### Decoding (R74, R75) -/

/-- Class 0x0: second dispatch on the low byte, bits 11:8 not examined (R74). -/
def decodeClass0 (w : Word) : Except DecodeReject Instr :=
  if fieldKk w = 0xE0 then .ok (.cls (fieldX w))
  else if fieldKk w = 0xEE then .ok (.ret (fieldX w))
  else .error (.noInstruction w)

/-- Class 0x8: second dispatch on the low nibble (R74, R76). -/
def decodeClass8 (w : Word) : Except DecodeReject Instr :=
  match fieldN w with
  | 0x0#4 => .ok (.ldReg (fieldX w) (fieldY w))
  | 0x1#4 => .ok (.or (fieldX w) (fieldY w))
  | 0x2#4 => .ok (.and (fieldX w) (fieldY w))
  | 0x3#4 => .ok (.xor (fieldX w) (fieldY w))
  | 0x4#4 => .ok (.addReg (fieldX w) (fieldY w))
  | 0x5#4 => .ok (.sub (fieldX w) (fieldY w))
  | 0x6#4 => .ok (.shr (fieldX w) (fieldY w))
  | 0x7#4 => .ok (.subn (fieldX w) (fieldY w))
  | 0xE#4 => .ok (.shl (fieldX w) (fieldY w))
  | _ => .error (.noInstruction w)

/-- Class 0xE: second dispatch on the low byte (R74). -/
def decodeClassE (w : Word) : Except DecodeReject Instr :=
  if fieldKk w = 0x9E then .ok (.skp (fieldX w))
  else if fieldKk w = 0xA1 then .ok (.sknp (fieldX w))
  else .error (.noInstruction w)

/-- Class 0xF: second dispatch on the low byte (R74, R77). -/
def decodeClassF (w : Word) : Except DecodeReject Instr :=
  if fieldKk w = 0x07 then .ok (.ldVDt (fieldX w))
  else if fieldKk w = 0x15 then .ok (.ldDtV (fieldX w))
  else if fieldKk w = 0x18 then .ok (.ldStV (fieldX w))
  else if fieldKk w = 0x1E then .ok (.addI (fieldX w))
  else if fieldKk w = 0x29 then .ok (.ldF (fieldX w))
  else if fieldKk w = 0x33 then .ok (.ldB (fieldX w))
  else if fieldKk w = 0x55 then .ok (.ldMemV (fieldX w))
  else if fieldKk w = 0x65 then .ok (.ldVMem (fieldX w))
  else .error (.noInstruction w)

/-- The opcode map of R75: total on all 65536 words (R80); class 0xB and every other word of R78 is
rejected with the word. -/
def decode (w : Word) : Except DecodeReject Instr :=
  match opClass w with
  | 0x0#4 => decodeClass0 w
  | 0x1#4 => .ok (.jp (fieldNnn w))
  | 0x2#4 => .ok (.call (fieldNnn w))
  | 0x3#4 => .ok (.seImm (fieldX w) (fieldKk w))
  | 0x4#4 => .ok (.sneImm (fieldX w) (fieldKk w))
  | 0x5#4 => .ok (.seReg (fieldX w) (fieldY w) (fieldN w))
  | 0x6#4 => .ok (.ldImm (fieldX w) (fieldKk w))
  | 0x7#4 => .ok (.addImm (fieldX w) (fieldKk w))
  | 0x8#4 => decodeClass8 w
  | 0x9#4 => .ok (.sneReg (fieldX w) (fieldY w) (fieldN w))
  | 0xA#4 => .ok (.ldI (fieldNnn w))
  | 0xC#4 => .ok (.rnd (fieldX w) (fieldKk w))
  | 0xD#4 => .ok (.drw (fieldX w) (fieldY w) (fieldN w))
  | 0xE#4 => decodeClassE w
  | 0xF#4 => decodeClassF w
  | _ => .error (.noInstruction w)

/-- The instruction at the head of a list of memory bytes, with the bytes after it (R54, R70). -/
def decodeBytes : List Byte → Except DecodeReject (Instr × List Byte)
  | hi :: lo :: rest => (decode (wordOfBytes hi lo)).map (·, rest)
  | _ => .error .truncated

/-! ### Encoding (R72) -/

/-- Formats XKK, NONE and XS: class, bits 11:8, low byte. -/
def formXKK (c x : Nibble) (kk : Byte) : Word := c ++ x ++ kk
/-- Format NNN: class, address. -/
def formNNN (c : Nibble) (nnn : Addr12) : Word := c ++ nnn
/-- Formats XY, XYS and XYN: class, x, y, low nibble. -/
def formXYN (c x y n : Nibble) : Word := c ++ x ++ y ++ n

/-- The instruction's word (R72, R75 to R77). -/
def encode : Instr → Word
  | .cls z => formXKK 0x0 z 0xE0
  | .ret z => formXKK 0x0 z 0xEE
  | .jp nnn => formNNN 0x1 nnn
  | .call nnn => formNNN 0x2 nnn
  | .seImm x kk => formXKK 0x3 x kk
  | .sneImm x kk => formXKK 0x4 x kk
  | .seReg x y z => formXYN 0x5 x y z
  | .ldImm x kk => formXKK 0x6 x kk
  | .addImm x kk => formXKK 0x7 x kk
  | .ldReg x y => formXYN 0x8 x y 0x0
  | .or x y => formXYN 0x8 x y 0x1
  | .and x y => formXYN 0x8 x y 0x2
  | .xor x y => formXYN 0x8 x y 0x3
  | .addReg x y => formXYN 0x8 x y 0x4
  | .sub x y => formXYN 0x8 x y 0x5
  | .shr x y => formXYN 0x8 x y 0x6
  | .subn x y => formXYN 0x8 x y 0x7
  | .shl x y => formXYN 0x8 x y 0xE
  | .sneReg x y z => formXYN 0x9 x y z
  | .ldI nnn => formNNN 0xA nnn
  | .rnd x kk => formXKK 0xC x kk
  | .drw x y n => formXYN 0xD x y n
  | .skp x => formXKK 0xE x 0x9E
  | .sknp x => formXKK 0xE x 0xA1
  | .ldVDt x => formXKK 0xF x 0x07
  | .ldDtV x => formXKK 0xF x 0x15
  | .ldStV x => formXKK 0xF x 0x18
  | .addI x => formXKK 0xF x 0x1E
  | .ldF x => formXKK 0xF x 0x29
  | .ldB x => formXKK 0xF x 0x33
  | .ldMemV x => formXKK 0xF x 0x55
  | .ldVMem x => formXKK 0xF x 0x65

/-- The instruction's two bytes in memory order (R54). -/
def encodeBytes (i : Instr) : List Byte := [highByte (encode i), lowByte (encode i)]

/-- The word whose bits are `w` numbered as spec/opcode_table.json numbers them, every bit at and above
`nbits` zero. -/
def tableWord (nbits w : Nat) : Word := BitVec.ofNat 16 (w % 2 ^ nbits)

/-- What the decoder reads from an instruction whose bits are `w`: its word laid out as two bytes in memory
order and decoded from there. -/
def decodeTableWord (nbits w : Nat) : Option Instr :=
  match decodeBytes [highByte (tableWord nbits w), lowByte (tableWord nbits w)] with
  | .ok (i, _) => some i
  | .error _ => none

end Sys2Proof
end

