-- ==== Sys2Proof/Config.lean ====
section
/-! DEFINITION. What an implementation of the core fixes: the parameters of 00_scope.md R8, as plain data that the step
relation takes as an argument (R40), and the values the spec leaves open. The parameters' default values stand in
Machine/Defaults.lean. -/

namespace Sys2Proof

/-- `FONT` with glyph A fixed (R8, R36, D3): the other fifteen glyphs, 5 bytes each, top row first. -/
structure Font where
  /-- Glyphs 0 to 9. -/
  zeroToNine : Vector Byte 50
  /-- Glyphs B to F. -/
  bToF : Vector Byte 25
  deriving DecidableEq, Repr

/-- The parameters of R8, "not state, but parameters of the step relation" (R40). -/
structure Params where
  /-- `MEM_SIZE` (R34, R50, D1). -/
  memSize : Nat
  /-- `PROGRAM_BASE` (R242, D2). -/
  programBase : Word
  /-- `FONT`, glyph A fixed (R36, D3). -/
  font : Font
  /-- `SHL_FLAG_MASK` (R130; 90_conflicts.md C1). -/
  shlFlagMask : Byte
  /-- `EXA1_CONSUMES` (R181, D18). -/
  exa1Consumes : Bool
  deriving DecidableEq, Repr

/-- The random oracle that answers `draw()` (R131, R40; D30): the byte of the n-th draw. A FREE VALUE: it has no
body, so nothing can be proved of it and a claim holds for every answer; safe (log entry 3). -/
opaque Config.randomByte : Nat → Byte

/-- Whether 8xyE reports a flag when its operand has some of the mask's bits and not all: the source does not say whether
the reference code compares for a nonzero overlap or for the whole mask, and a claim that relies on it "is not
supported" (R130; 93_implementation_defined.md). A FREE VALUE of the mask and the operand, with no body; safe (log
entry 8). Under the default mask of one bit it is never asked for. -/
opaque Config.partialShlFlag : Byte → Byte → Bool

end Sys2Proof
end

