-- ==== Sys2Proof/Machine/Defaults.lean ====
section
/-! DEFINITION. The values the spec gives the parameters (00_scope.md R8; 10_state.md R36), and the bytes of a font. -/

namespace Sys2Proof

/-- Glyph A: the only glyph the source gives (R36, D3), so the only one every font has. -/
def glyphA : Vector Byte 5 := #v[0xF0, 0x90, 0xF0, 0x90, 0x90]

/-- The 16 glyphs in order, glyph d at 5*d (R36). -/
def Font.bytes (f : Font) : List Byte := f.zeroToNine.toList ++ glyphA.toList ++ f.bToF.toList

/-- The font of the table of R36 (D3). -/
def Font.default : Font where
  zeroToNine :=
    #v[0xF0, 0x90, 0x90, 0x90, 0xF0,
       0x20, 0x60, 0x20, 0x20, 0x70,
       0xF0, 0x10, 0xF0, 0x80, 0xF0,
       0xF0, 0x10, 0xF0, 0x10, 0xF0,
       0x90, 0x90, 0xF0, 0x10, 0x10,
       0xF0, 0x80, 0xF0, 0x10, 0xF0,
       0xF0, 0x80, 0xF0, 0x90, 0xF0,
       0xF0, 0x10, 0x20, 0x40, 0x40,
       0xF0, 0x90, 0xF0, 0x90, 0xF0,
       0xF0, 0x90, 0xF0, 0x10, 0xF0]
  bToF :=
    #v[0xE0, 0x90, 0xE0, 0x90, 0xE0,
       0xF0, 0x80, 0x80, 0x80, 0xF0,
       0xE0, 0x90, 0x90, 0x90, 0xE0,
       0xF0, 0x80, 0xF0, 0x80, 0xF0,
       0xF0, 0x80, 0xF0, 0x80, 0x80]

/-- The values R8 gives the parameters: log entries 5 to 9. -/
def Params.default : Params where
  memSize := 4096
  programBase := 0x200
  font := Font.default
  shlFlagMask := 0x80
  exa1Consumes := true

end Sys2Proof
end

