-- ==== Sys2Proof/Machine/State.lean ====
section
/-! DEFINITION. The state of the core as plain data, its reasons to stop, and the state after reset
(10_state.md; 60_exceptions.md R200). -/

namespace Sys2Proof.Machine

/-- The fatal errors of R200, each with the information it records. A fatal error is first TAKEN (a next
state whose `fault` field holds it, R201); the outcome `fault` is answered only by a step of a core that
is already faulted, which "returns the same error" (R83, R201). All are safe: each stop is the spec's own. -/
inductive Fault where
  /-- Code 1, R202: a step whose fetched word has no instruction (R78). Safe. -/
  | decodeError (pc w : Word)
  /-- Code 2, R203: 2nnn with SP = 15. Safe. -/
  | stackOverflow (pc w : Word)
  /-- Code 3, R204: 00EE with SP = 0. Safe. -/
  | stackUnderflow (pc w : Word)
  /-- Code 4, R205: a fetch (no word), or Dxyn, Fx33, Fx55, Fx65, touching an address at or above
  `MEM_SIZE`; `addr` is the lowest such address. Safe. -/
  | memoryOutOfBounds (pc : Word) (w : Option Word) (addr : Nat)
  /-- Code 5, R206: `initialize` with an image that is too long (its length), or missing or unreadable
  (no length: log entry 13). Safe. -/
  | programLoadFailure (len : Option Nat)
  /-- Code 6, R207: Ex9E or ExA1 with Vx >= 16. Safe. -/
  | keyIndexOutOfRange (pc w : Word) (vx : Byte)
  deriving DecidableEq, Repr

/-- Reasons the model gives an instruction no meaning. -/
inductive Refusal where
  /-- Answered by an arm of `exec` for an instruction that has no meaning yet; safe. Every instruction of this
  model has its meaning, so no arm answers it. -/
  | notModelled (mnemonic : String)
  deriving DecidableEq, Repr

/-- Memory: the cells that differ from their reset contents, by rising address (R34, R50). -/
abbrev Memory := List Host.Cell

/-- The framebuffer `fb[y][x]`: 32 rows of 64 one-bit pixels (R32). -/
abbrev Framebuffer := Vector (Vector Bool 64) 32

/-- The complete state of the core (10_state.md), the parameters it runs under, and the model's own draw counter. -/
structure State where
  /-- V0..VF (R20); VF is index 15 (R21). -/
  v : Vector Byte 16
  /-- The address register I (R26). -/
  i : Word
  /-- The program counter (R23). -/
  pc : Word
  /-- The stack pointer, 0..15 (R28). -/
  sp : Fin 16
  /-- The call stack (R27). -/
  stack : Vector Word 16
  /-- The delay timer (R29). -/
  dt : Byte
  /-- The sound timer (R30). -/
  st : Byte
  /-- The input latch (R31). -/
  key : Vector Bool 16
  /-- The framebuffer (R32). -/
  fb : Framebuffer
  /-- The dirty flag (R33). -/
  dirty : Bool
  /-- Memory (R34). -/
  mem : Memory
  /-- The fault record (R35). -/
  fault : Option Fault
  /-- The MODEL's own field, not the spec's: how many bytes the random oracle has been asked for (R131; log
  entry 3). Its reset value is a DESIGN CHOICE; no statement rests on it. -/
  draws : Nat
  /-- The parameters of R8: NOT state of the core but arguments of the step relation (R40), carried here because `step` and
  `exec` take nothing else. No instruction and no host action writes them (log entry 16). -/
  params : Params
  deriving DecidableEq, Repr

/-- The state after `initialize` of an empty image under given parameters (R37, R240, R241): no program has been loaded
(log entry 11). -/
def State.resetWith (p : Params) : State where
  v := Vector.replicate 16 0
  i := 0
  pc := p.programBase
  sp := 0
  stack := Vector.replicate 16 0
  dt := 0
  st := 0
  key := Vector.replicate 16 false
  fb := Vector.replicate 32 (Vector.replicate 64 false)
  dirty := false
  mem := []
  fault := none
  draws := 0
  params := p

/-- The machine right after reset, under the parameters' default values (R8; log entries 5 to 9). -/
def State.reset : State := State.resetWith Params.default

end Sys2Proof.Machine
end

