-- ==== Sys2Proof/Machine/Ops.lean ====
section
/-! DEFINITION. The named operations over memory, registers, the program counter, the call stack, the
latch, the framebuffer and the oracle, and the taking of a fatal error (00_scope.md R12; 20_memory.md;
60_exceptions.md R201). -/

namespace Sys2Proof.Machine

/-! ### Memory (R34, R50 to R57) -/

/-- What an address holds that nothing has written: the font at the lowest addresses, 0 elsewhere (R36, R37, R58). -/
def resetByte (p : Params) (a : Nat) : Byte := p.font.bytes[a]?.getD 0

/-- The byte at an address. -/
def Memory.read (p : Params) : Memory → Nat → Byte
  | [], a => resetByte p a
  | (k, b) :: m, a => if a = k then b else Memory.read p m a

/-- Memory with no entry for an address. -/
def Memory.erase (a : Nat) : Memory → Memory
  | [] => []
  | (k, b) :: m => if a = k then Memory.erase a m else (k, b) :: Memory.erase a m

/-- Memory with an entry added before the first higher address. -/
def Memory.insert (a : Nat) (b : Byte) : Memory → Memory
  | [] => [(a, b)]
  | (k, c) :: m => if a < k then (a, b) :: (k, c) :: m else (k, c) :: Memory.insert a b m

/-- `MemWrite(a, 1, b)` after its bounds check (R12, R57): only this byte changes. An entry equal to the reset
contents is not kept, so equal memories are equal lists. -/
def Memory.write (p : Params) (m : Memory) (a : Nat) (b : Byte) : Memory :=
  if b = resetByte p a then Memory.erase a m else Memory.insert a b (Memory.erase a m)

/-- Bytes written at consecutive rising addresses (R55). -/
def Memory.writeBytes (p : Params) (m : Memory) (a : Nat) : List Byte → Memory
  | [] => m
  | b :: bs => Memory.writeBytes p (Memory.write p m a b) (a + 1) bs

/-- `n` bytes read at consecutive rising addresses (R55). -/
def Memory.readBytes (p : Params) (m : Memory) (a : Nat) : Nat → List Byte
  | 0 => []
  | n + 1 => Memory.read p m a :: Memory.readBytes p m (a + 1) n

/-- The entries stand at strictly rising addresses, from `lo` on and inside memory, and none equals the reset contents. -/
def Memory.canonicalFrom (p : Params) (lo : Nat) : Memory → Bool
  | [] => true
  | (a, b) :: m => decide (lo ≤ a) && decide (a < p.memSize) && (b != resetByte p a) &&
    Memory.canonicalFrom p (a + 1) m

/-- The canonical form of memory. -/
def Memory.wf (p : Params) (m : Memory) : Bool := Memory.canonicalFrom p 0 m

/-- The lowest address at or above `MEM_SIZE` among the `count` addresses from `base` on, if there is one: the
check of R52 and R53. Addresses are exact sums and are never reduced (C2). -/
def outOfBounds (p : Params) (base count : Nat) : Option Nat :=
  if 0 < count ∧ p.memSize < base + count then some (max base p.memSize) else none

/-- The byte of the state's memory at an address (R12 `MemRead`, after its check). -/
def State.readByte (s : State) (a : Nat) : Byte := Memory.read s.params s.mem a

/-- `n` bytes of the state's memory from an address on (R55), after their check. -/
def State.readBytes (s : State) (a n : Nat) : List Byte := Memory.readBytes s.params s.mem a n

/-- The state with bytes stored from an address on (R12 `MemWrite`, R55), after their check: only they change. -/
def State.storeBytes (s : State) (a : Nat) (bytes : List Byte) : State :=
  { s with mem := Memory.writeBytes s.params s.mem a bytes }

/-! ### Registers, program counter, call stack (R20, R23 to R28) -/

/-- `V[r]`. -/
def State.getV (s : State) (r : Nibble) : Byte := s.v[r.toNat]'r.isLt

/-- `V[r] <- b`. -/
def State.setV (s : State) (r : Nibble) (b : Byte) : State := { s with v := s.v.set r.toNat b r.isLt }

/-- `VF` (R13, R21). -/
def vf : Nibble := 0xF

/-- A register result and then the flag in VF: the flag is written last and remains when the destination
is VF itself (R12, R246; D12). -/
def State.setVThenFlag (s : State) (r : Nibble) (b flag : Byte) : State := (s.setV r b).setV vf flag

/-- `V0..Vx`, in order (R144). -/
def State.dumpV (s : State) (x : Nibble) : List Byte := s.v.toList.take (x.toNat + 1)

/-- `V[j] <- bytes[j]` for every j the list reaches; the other registers keep their values (R145). -/
def State.loadV (s : State) (bytes : List Byte) : State :=
  { s with v := Vector.ofFn fun j : Fin 16 => bytes[j.val]?.getD s.v[j] }

/-- `pc <- pc + 2` (R24, R85). -/
def State.advance (s : State) : State := { s with pc := s.pc + 2 }

/-- `pc <- pc + 4` if the condition holds, else `pc <- pc + 2` (R24): a skip passes over one word unread (R87). -/
def State.skipIf (s : State) (c : Bool) : State := { s with pc := s.pc + if c then 4 else 2 }

/-- `SP <- SP + 1; stack[SP] <- a` (R28, R102); the caller has checked SP < 15. -/
def State.push (s : State) (a : Word) : State :=
  { s with sp := s.sp + 1, stack := s.stack.set (s.sp + 1).val a (s.sp + 1).isLt }

/-- `stack[SP]` (R28). -/
def State.top (s : State) : Word := s.stack[s.sp]

/-- `SP <- SP - 1` (R28, R100); the caller has checked SP > 0. The popped entry keeps its value. -/
def State.pop (s : State) : State := { s with sp := s.sp - 1 }

/-! ### Input latch (R31) -/

/-- `key[k]`. -/
def State.keyDown (s : State) (k : Fin 16) : Bool := s.key[k]

/-- `key[k] <- p`. -/
def State.setSlot (s : State) (k : Fin 16) (p : Bool) : State := { s with key := s.key.set k.val p k.isLt }

/-! ### Framebuffer (R32, R160 to R164) -/

/-- The dark framebuffer. -/
def Framebuffer.dark : Framebuffer := Vector.replicate 32 (Vector.replicate 64 false)

/-- `fb[y][x]`. -/
def Framebuffer.get (fb : Framebuffer) (x : Fin 64) (y : Fin 32) : Bool := (fb[y])[x]

/-- `fb[y][x] <- fb[y][x] ^ 1`. -/
def Framebuffer.flip (fb : Framebuffer) (x : Fin 64) (y : Fin 32) : Framebuffer :=
  fb.set y.val ((fb[y]).set x.val (!Framebuffer.get fb x y) x.isLt) y.isLt

/-- A pixel of the state's framebuffer. -/
def State.pixel (s : State) (x : Fin 64) (y : Fin 32) : Bool := Framebuffer.get s.fb x y

/-- Bit `7 - c` of a sprite byte: its pixel in column c, bit 7 leftmost (R164, D15). -/
def spriteBit (row : Byte) (c : Nat) : Bool := row.getLsbD (7 - c)

/-- The column of sprite column c: `(x0 + c) mod 64` (R162, D15). -/
def wrapColumn (x0 : Byte) (c : Nat) : Fin 64 := Fin.ofNat 64 (x0.toNat + c)

/-- The row of sprite row r: `(y0 + r) mod 32` (R162, D15). -/
def wrapRow (y0 : Byte) (r : Nat) : Fin 32 := Fin.ofNat 32 (y0.toNat + r)

/-- What a draw has done so far: the framebuffer and the collision flag. -/
structure Blit where
  fb : Framebuffer
  collision : Bool
  deriving DecidableEq, Repr

/-- One set sprite pixel: a lit pixel that it erases is a collision (R162). -/
def Blit.toggle (d : Blit) (x : Fin 64) (y : Fin 32) : Blit :=
  { fb := Framebuffer.flip d.fb x y, collision := d.collision || Framebuffer.get d.fb x y }

/-- One sprite row, over the given columns in order (R162's inner loop). -/
def blitRow (row x0 : Byte) (py : Fin 32) : List Nat → Blit → Blit
  | [], d => d
  | c :: cs, d => blitRow row x0 py cs (if spriteBit row c then d.toggle (wrapColumn x0 c) py else d)

/-- The sprite rows from row r on, in order (R162's outer loop). -/
def blitRows (x0 y0 : Byte) : Nat → List Byte → Blit → Blit
  | _, [], d => d
  | r, row :: rows, d => blitRows x0 y0 (r + 1) rows (blitRow row x0 (wrapRow y0 r) (List.range 8) d)

/-! ### Random oracle (R131) -/

/-- `draw()`: one fresh byte. -/
def State.drawByte (s : State) : Byte := Config.randomByte s.draws

/-- The state after a draw: the next one is another. -/
def State.afterDraw (s : State) : State := { s with draws := s.draws + 1 }

/-! ### Fatal errors (R200, R201) -/

/-- The error's code (R200, D32). -/
def Fault.code : Fault → Nat
  | .decodeError _ _ => 1
  | .stackOverflow _ _ => 2
  | .stackUnderflow _ _ => 3
  | .memoryOutOfBounds _ _ _ => 4
  | .programLoadFailure _ => 5
  | .keyIndexOutOfRange _ _ _ => 6

/-- The error recorded in the fault record, and nothing else changed (R201, R209): no register, no pc, no
memory. There is no vector, handler or mode change, and no return from a fatal error (R209, R210). -/
def State.recordFault (s : State) (f : Fault) : State := { s with fault := some f }

/-- `raise E(info)` (R12, R201): taking a fatal error. The core goes to the faulted state, from which every later
step answers the error (Step.lean). DEDUCED; safe (log entry 1). -/
def raise (f : Fault) (s : State) : Host.Outcome State Fault Refusal := .next (s.recordFault f)

/-- An instruction's data accesses checked before it writes anything (R53): `MemoryOutOfBounds` with the lowest
failing address, or the instruction's effect. -/
def checked (base count : Nat) (w : Word) (s after : State) : Host.Outcome State Fault Refusal :=
  match outOfBounds s.params base count with
  | some a => raise (.memoryOutOfBounds s.pc (some w) a) s
  | none => .next after

/-! ### Fetch (R54, R84) -/

/-- The word at the program counter, big-endian (R54). -/
def State.fetchWord (s : State) : Word := wordOfBytes (s.readByte s.pc.toNat) (s.readByte (s.pc.toNat + 1))

/-- The bounds check of a fetch: the first failing address is `pc`, or `pc + 1` (R83, R84). -/
def State.fetchFault (s : State) : Option Nat := outOfBounds s.params s.pc.toNat 2

end Sys2Proof.Machine
end

