-- ==== Sys2Proof/Machine/Operands.lean ====
section
/-! DEFINITION. The operand forms: how a field or a register becomes an address, a count, a key or digits
(30_encoding.md R73; 43_index_memory.md R146). All operands are unsigned and zero-extended. -/

namespace Sys2Proof.Machine

/-- `zext_16(nnn)`: the absolute address for pc and I (R73). -/
def zextAddr (nnn : Addr12) : Word := nnn.setWidth 16

/-- `zext_16(V[x])` (R141, R142). -/
def zextByte (b : Byte) : Word := b.setWidth 16

/-- The effective address of the k-th byte of a data access: `I + k`, an exact integer (R52, R146). -/
def State.dataAddr (s : State) (k : Nat) : Nat := s.i.toNat + k

/-- How many registers `V0..Vx` are (R73): x + 1. -/
def rangeCount (x : Nibble) : Nat := x.toNat + 1

/-- The latch slot a register names, if it names one: 0..15 (R180, R181). -/
def keyIndex (b : Byte) : Option (Fin 16) := if h : b.toNat < 16 then some ⟨b.toNat, h⟩ else none

/-- The address of the glyph of a digit: `zext_16(V[x]) * 5`, the register not reduced to a digit (R142). -/
def glyphAddr (b : Byte) : Word := zextByte b * 5

/-- Hundreds, tens and ones of a byte (R143). -/
def decimalDigits (b : Byte) : List Byte :=
  [BitVec.ofNat 8 (b.toNat / 100), BitVec.ofNat 8 (b.toNat / 10 % 10), BitVec.ofNat 8 (b.toNat % 10)]

end Sys2Proof.Machine
end

