-- ==== Sys2Proof/Machine/Flags.lean ====
section
/-! DEFINITION. Every flag computation: what 8xy4, 8xy5, 8xy6, 8xy7, 8xyE and Dxyn put into VF
(10_state.md R21; 42_alu.md; 44_display.md R162). -/

namespace Sys2Proof.Machine

/-- A flag as VF holds it: 1 or 0. -/
def flagByte (c : Bool) : Byte := if c then 1 else 0

/-- 8xy4: the unsigned sum exceeds 255 (R126). -/
def addFlag (a b : Byte) : Bool := decide (255 < a.toNat + b.toNat)

/-- 8xy5 and 8xy7: the minuend is strictly greater than the subtrahend (R127, R129). -/
def subFlag (minuend subtrahend : Byte) : Bool := decide (subtrahend.toNat < minuend.toNat)

/-- 8xy6: bit 0 before the shift (R128). -/
def shrFlag (a : Byte) : Bool := a.getLsbD 0

/-- 8xyE: the bits of the mask `SHL_FLAG_MASK` before the shift (R130): 0 for no bit of it, 1 for the whole mask; for some
of its bits and not all the answer is free (93_implementation_defined.md; log entry 8). -/
def shlFlag (mask a : Byte) : Bool :=
  if a &&& mask = 0 then false else if a &&& mask = mask then true else Config.partialShlFlag mask a

/-- Dxyn: the draw erased a lit pixel (R162). -/
def collisionFlag (d : Blit) : Bool := d.collision

end Sys2Proof.Machine
end

