-- ==== Sys2Proof/Machine/ControlFlow.lean ====
section
/-! DEFINITION. Return, jump, call and the register skips (41_control_flow.md). -/

namespace Sys2Proof.Machine

/-- 00EE (R100): `StackUnderflow` when SP is 0, else pc takes the popped address as it is. -/
def execRet (z : Nibble) (s : State) : Host.Outcome State Fault Refusal :=
  if s.sp = 0 then raise (.stackUnderflow s.pc (encode (.ret z))) s
  else .next { s.pop with pc := s.top }

/-- 1nnn (R101). -/
def execJp (nnn : Addr12) (s : State) : Host.Outcome State Fault Refusal :=
  .next { s with pc := zextAddr nnn }

/-- 2nnn (R102): `StackOverflow` when SP is 15, else the address after the call is pushed. -/
def execCall (nnn : Addr12) (s : State) : Host.Outcome State Fault Refusal :=
  if s.sp = 15 then raise (.stackOverflow s.pc (encode (.call nnn))) s
  else .next { s.push (s.pc + 2) with pc := zextAddr nnn }

/-- 3xkk (R103). -/
def execSeImm (x : Nibble) (kk : Byte) (s : State) : Host.Outcome State Fault Refusal :=
  .next (s.skipIf (s.getV x == kk))

/-- 4xkk (R104). -/
def execSneImm (x : Nibble) (kk : Byte) (s : State) : Host.Outcome State Fault Refusal :=
  .next (s.skipIf (s.getV x != kk))

/-- 5xy0, bits 3:0 not examined (R105). -/
def execSeReg (x y : Nibble) (s : State) : Host.Outcome State Fault Refusal :=
  .next (s.skipIf (s.getV x == s.getV y))

/-- 9xy0, bits 3:0 not examined (R106). -/
def execSneReg (x y : Nibble) (s : State) : Host.Outcome State Fault Refusal :=
  .next (s.skipIf (s.getV x != s.getV y))

end Sys2Proof.Machine
end

