-- ==== Sys2Proof/Machine/Display.lean ====
section
/-! DEFINITION. The framebuffer controller's instructions: clear and draw (44_display.md). -/

namespace Sys2Proof.Machine

/-- 00E0 (R161): every pixel dark, dirty true whatever the framebuffer held. -/
def execCls (s : State) : Host.Outcome State Fault Refusal :=
  .next { s with fb := Framebuffer.dark, dirty := true }.advance

/-- The blit of Dxyn: n rows from I on, at the coordinates the registers hold before the draw (R162). -/
def State.blit (s : State) (x y n : Nibble) : Blit :=
  blitRows (s.getV x) (s.getV y) 0 (s.readBytes (s.dataAddr 0) n.toNat) { fb := s.fb, collision := false }

/-- Dxyn (R162): VF takes the collision flag, dirty becomes true; no row is read and no pixel changed when n is 0 (D16). -/
def execDrw (x y n : Nibble) (s : State) : Host.Outcome State Fault Refusal :=
  checked (s.dataAddr 0) n.toNat (encode (.drw x y n)) s
    ({ s with fb := (s.blit x y n).fb, dirty := true }.setV vf (flagByte (collisionFlag (s.blit x y n)))).advance

end Sys2Proof.Machine
end

