-- ==== Sys2Proof/Machine/IndexMemory.lean ====
section
/-! DEFINITION. The address register and the memory transfers (43_index_memory.md). No transfer changes I
(R26, R146, D19). -/

namespace Sys2Proof.Machine

/-- Annn (R140). -/
def execLdI (nnn : Addr12) (s : State) : Host.Outcome State Fault Refusal :=
  .next { s with i := zextAddr nnn }.advance

/-- Fx1E: modulo 2^16, no flag (R141, D9). -/
def execAddI (x : Nibble) (s : State) : Host.Outcome State Fault Refusal :=
  .next { s with i := s.i + zextByte (s.getV x) }.advance

/-- Fx29 (R142). -/
def execLdF (x : Nibble) (s : State) : Host.Outcome State Fault Refusal :=
  .next { s with i := glyphAddr (s.getV x) }.advance

/-- Fx33 (R143): the three addresses are checked before any digit is stored. -/
def execLdB (x : Nibble) (s : State) : Host.Outcome State Fault Refusal :=
  checked (s.dataAddr 0) 3 (encode (.ldB x)) s
    (s.storeBytes (s.dataAddr 0) (decimalDigits (s.getV x))).advance

/-- Fx55 (R144). -/
def execLdMemV (x : Nibble) (s : State) : Host.Outcome State Fault Refusal :=
  checked (s.dataAddr 0) (rangeCount x) (encode (.ldMemV x)) s
    (s.storeBytes (s.dataAddr 0) (s.dumpV x)).advance

/-- Fx65 (R145). -/
def execLdVMem (x : Nibble) (s : State) : Host.Outcome State Fault Refusal :=
  checked (s.dataAddr 0) (rangeCount x) (encode (.ldVMem x)) s
    (s.loadV (s.readBytes (s.dataAddr 0) (rangeCount x))).advance

end Sys2Proof.Machine
end

