-- ==== Sys2Proof/Machine/InputTimers.lean ====
section
/-! DEFINITION. The key skips with their read-and-clear, and the timer moves (45_input_timers.md). -/

namespace Sys2Proof.Machine

/-- Ex9E (R180): a pressed key is released and the skip taken. -/
def execSkp (x : Nibble) (s : State) : Host.Outcome State Fault Refusal :=
  match keyIndex (s.getV x) with
  | none => raise (.keyIndexOutOfRange s.pc (encode (.skp x)) (s.getV x)) s
  | some k => .next (if s.keyDown k then (s.setSlot k false).skipIf true else s.skipIf false)

/-- ExA1 (R181): no skip on a pressed key, which is released if the parameter `EXA1_CONSUMES` says so. -/
def execSknp (x : Nibble) (s : State) : Host.Outcome State Fault Refusal :=
  match keyIndex (s.getV x) with
  | none => raise (.keyIndexOutOfRange s.pc (encode (.sknp x)) (s.getV x)) s
  | some k => .next (if s.keyDown k then (if s.params.exa1Consumes then s.setSlot k false else s).skipIf false else s.skipIf true)

/-- Fx07 (R182). -/
def execLdVDt (x : Nibble) (s : State) : Host.Outcome State Fault Refusal := .next (s.setV x s.dt).advance

/-- Fx15 (R183). -/
def execLdDtV (x : Nibble) (s : State) : Host.Outcome State Fault Refusal := .next { s with dt := s.getV x }.advance

/-- Fx18 (R184). -/
def execLdStV (x : Nibble) (s : State) : Host.Outcome State Fault Refusal := .next { s with st := s.getV x }.advance

end Sys2Proof.Machine
end

