-- ==== Sys2Proof/Machine/Step.lean ====
section
/-! DEFINITION. The instruction cycle (30_encoding.md R83 to R87). -/

namespace Sys2Proof.Machine

/-- `step()` (R83): a faulted core does not step and answers its error (R201, D28); else the word at the pc is fetched
(R84), decoded (R78) and executed, each of the three taking its own fatal error, in this order of priority (R208).
The pc is written by the instruction's own rule (R85). -/
def step (s : State) : Host.Outcome State Fault Refusal :=
  match s.fault with
  | some f => .fault f
  | none =>
    match s.fetchFault with
    | some a => raise (.memoryOutOfBounds s.pc none a) s
    | none =>
      match decode s.fetchWord with
      | .error _ => raise (.decodeError s.pc s.fetchWord) s
      | .ok i => exec i s

/-- The state with an instruction's word stored at the program counter, high byte first (R54), so that the next step of
an unfaulted core fetches it. It stands for the host's loading of a program (R240; log entry 11). -/
def State.withFetchWord (s : State) (nbits w : Nat) : State :=
  s.storeBytes s.pc.toNat [highByte (tableWord nbits w), lowByte (tableWord nbits w)]

end Sys2Proof.Machine
end

