-- ==== Sys2Proof/Machine/HostActions.lean ====
section
/-! DEFINITION. The host's actions on the core (60_exceptions.md R214 to R222; 70_reset_and_hazards.md R240, R241).
Each is one atomic transaction, and they are the only ways the state changes or is observed (R222). -/

namespace Sys2Proof.Machine

/-- The state `initialize` makes of an image that fits (R240): memory zeroed, then the font, then the image; all else as R37
says. The parameters and the oracle are not part of what is reset: the draws stay fresh (R40, R131; log entry 3). -/
def State.loaded (s : State) (image : List Byte) : State :=
  { (State.resetWith s.params).storeBytes s.params.programBase.toNat image with draws := s.draws }

/-- `initialize(p)` (R240, R241): `none` is an image that is missing or unreadable; an image fits when its length is at most
`MEM_SIZE - PROGRAM_BASE`, compared as exact integers (R206). A failure leaves the core faulted; that
it changes nothing else is a DESIGN CHOICE, safe because a faulted core runs nothing (log entry 13). -/
def State.initCore (s : State) : Option (List Byte) → State
  | none => s.recordFault (.programLoadFailure none)
  | some image =>
    if s.params.programBase.toNat + image.length ≤ s.params.memSize then s.loaded image
    else s.recordFault (.programLoadFailure (some image.length))

/-- A timer counted down, never below 0 (R214). -/
def countDown (t : Byte) : Byte := if t = 0 then 0 else t - 1

/-- `tick()` (R214, D27): nothing on a faulted core. -/
def State.tick (s : State) : State :=
  if s.fault = none then { s with dt := countDown s.dt, st := countDown s.st } else s

/-- `set_key(k, pressed)` (R216). -/
def State.setKey (s : State) (k : Fin 16) (pressed : Bool) : State := s.setSlot k pressed

/-- `mark_consumed()` (R219). -/
def State.markConsumed (s : State) : State := { s with dirty := false }

/-- The host's actions. A key index is 0..15: no move is modelled for another (R216, D36). -/
inductive HostAction where
  | initCore (image : Option (List Byte))
  | step
  | tick
  | setKey (k : Fin 16) (pressed : Bool)
  | getKey (k : Fin 16)
  | inspectFramebuffer
  | markConsumed
  deriving DecidableEq, Repr

/-- What an action returns to the host. -/
inductive HostReply where
  /-- `Ok` of a step (R86); of initialize, the model's choice (log entry 17); and an action that returns nothing. -/
  | ok
  /-- The fatal error of a step (R86, R201); of initialize, the model's choice (log entry 17). -/
  | error (f : Fault)
  /-- The latch slot (R217). -/
  | key (pressed : Bool)
  /-- A copy of the framebuffer and the dirty flag (R218). -/
  | picture (fb : Framebuffer) (dirty : Bool)
  deriving DecidableEq, Repr

/-- `Ok`, or the error the state has recorded (R86, R201). -/
def State.report (s : State) : HostReply :=
  match s.fault with
  | none => .ok
  | some f => .error f

/-- The state after `step()` (R220): a faulted core keeps its state (R201). -/
def State.afterStep (s : State) : State :=
  match Sys2Proof.Machine.step s with
  | .next t => t
  | .fault _ => s
  | .refused _ => s

/-- The state after an action (R222). -/
def HostAction.apply (s : State) : HostAction → State
  | .initCore image => s.initCore image
  | .step => s.afterStep
  | .tick => s.tick
  | .setKey k pressed => s.setKey k pressed
  | .getKey _ => s
  | .inspectFramebuffer => s
  | .markConsumed => s.markConsumed

/-- What an action returns: step (R86, R201, R220), get_key (R217) and inspect_framebuffer (R218). The spec gives no return
value to the others. DESIGN CHOICE: initialize returns what it left in the fault record, as step does, `Ok` or the error,
where R241 says only that the core is left faulted; unsafe (log entry 17). -/
def HostAction.reply (s : State) : HostAction → HostReply
  | .initCore image => (s.initCore image).report
  | .step => s.afterStep.report
  | .tick => .ok
  | .setKey _ _ => .ok
  | .getKey k => .key (s.keyDown k)
  | .inspectFramebuffer => .picture s.fb s.dirty
  | .markConsumed => .ok

/-- The state after a list of actions: any interleaving of whole actions is one such list (R222, D26). -/
def hostRun (s : State) : List HostAction → State
  | [] => s
  | a :: as => hostRun (a.apply s) as

end Sys2Proof.Machine
end

