-- ==== Sys2Proof/Safety.lean ====
section
/-! DEFINITION. The terms in which claims about the core are stated: what a transition leaves unchanged,
the invariant of the reachable states, the tables of the spec about who writes what, and the normal end
of a run. -/

namespace Sys2Proof.Machine

/-! ### Frames -/

/-- The pieces of state of 10_state.md, and the parameters of R8. (The model's own draw counter is none of them.) -/
inductive Part where
  | regs | i | pc | sp | stack | dt | st | keys | pixels | dirty | mem | fault | params
  deriving DecidableEq, Repr

/-- A piece of state is the same in two states: every register, every entry, every slot, every pixel, and the byte
at every address. -/
def Part.same : Part → State → State → Prop
  | .regs, s, t => ∀ r, t.getV r = s.getV r
  | .i, s, t => t.i = s.i
  | .pc, s, t => t.pc = s.pc
  | .sp, s, t => t.sp = s.sp
  | .stack, s, t => ∀ j : Fin 16, t.stack[j] = s.stack[j]
  | .dt, s, t => t.dt = s.dt
  | .st, s, t => t.st = s.st
  | .keys, s, t => ∀ k, t.keyDown k = s.keyDown k
  | .pixels, s, t => ∀ x y, t.pixel x y = s.pixel x y
  | .dirty, s, t => t.dirty = s.dirty
  | .mem, s, t => ∀ a, t.readByte a = s.readByte a
  | .fault, s, t => t.fault = s.fault
  | .params, s, t => t.params = s.params

/-- Every piece of state but the listed ones is the same in `t` as in `s`. -/
def UnchangedBut (parts : List Part) (s t : State) : Prop := ∀ p, p ∉ parts → p.same s t

/-- Every word with these fixed bits decodes to the instruction made from its fields. -/
def DecodesAs (mask pat : Word) (made : Word → Instr) : Prop := ∀ w, w &&& mask = pat → decode w = .ok (made w)

/-! ### Who writes what, instruction by instruction -/

end Sys2Proof.Machine

namespace Sys2Proof

open Machine

/-- The general registers an instruction may write: the last column of the table of R22. -/
def Instr.writesV : Instr → Nibble → Prop
  | .ldImm x _, r | .addImm x _, r | .ldReg x _, r | .or x _, r | .and x _, r | .xor x _, r | .rnd x _, r
  | .ldVDt x, r => r = x
  | .addReg x _, r | .sub x _, r | .shr x _, r | .subn x _, r | .shl x _, r => r = x ∨ r = vf
  | .drw _ _ _, r => r = vf
  | .ldVMem x, r => r.toNat ≤ x.toNat
  | .cls _, _ | .ret _, _ | .jp _, _ | .call _, _ | .seImm _ _, _ | .sneImm _ _, _ | .seReg _ _ _, _ | .sneReg _ _ _, _
  | .ldI _, _ | .skp _, _ | .sknp _, _ | .ldDtV _, _ | .ldStV _, _ | .addI _, _ | .ldF _, _ | .ldB _, _ | .ldMemV _, _ => False

/-- The memory addresses an instruction may write, from the state it starts in: the table of R51. -/
def Instr.writesMem : Instr → State → Nat → Prop
  | .ldB _, s, a => s.i.toNat ≤ a ∧ a ≤ s.i.toNat + 2
  | .ldMemV x, s, a => s.i.toNat ≤ a ∧ a ≤ s.i.toNat + x.toNat
  | .cls _, _, _ | .ret _, _, _ | .jp _, _, _ | .call _, _, _ | .seImm _ _, _, _ | .sneImm _ _, _, _ | .seReg _ _ _, _, _
  | .ldImm _ _, _, _ | .addImm _ _, _, _ | .ldReg _ _, _, _ | .or _ _, _, _ | .and _ _, _, _ | .xor _ _, _, _ | .addReg _ _, _, _
  | .sub _ _, _, _ | .shr _ _, _, _ | .subn _ _, _, _ | .shl _ _, _, _ | .sneReg _ _ _, _, _ | .ldI _, _, _ | .rnd _ _, _, _
  | .drw _ _ _, _, _ | .skp _, _, _ | .sknp _, _, _ | .ldVDt _, _, _ | .ldDtV _, _, _ | .ldStV _, _, _ | .addI _, _, _
  | .ldF _, _, _ | .ldVMem _, _, _ => False

/-- The pc after an instruction that raises no fatal error: the table of R24. -/
def Instr.newPc : Instr → State → Word
  | .jp nnn, _ | .call nnn, _ => BitVec.ofNat 16 nnn.toNat
  | .ret _, s => s.stack[s.sp]
  | .seImm x kk, s => if s.getV x = kk then s.pc + 4 else s.pc + 2
  | .sneImm x kk, s => if s.getV x ≠ kk then s.pc + 4 else s.pc + 2
  | .seReg x y _, s => if s.getV x = s.getV y then s.pc + 4 else s.pc + 2
  | .sneReg x y _, s => if s.getV x ≠ s.getV y then s.pc + 4 else s.pc + 2
  | .skp x, s => if s.key[(s.getV x).toNat]? = some true then s.pc + 4 else s.pc + 2
  | .sknp x, s => if s.key[(s.getV x).toNat]? = some false then s.pc + 4 else s.pc + 2
  | .cls _, s | .ldImm _ _, s | .addImm _ _, s | .ldReg _ _, s | .or _ _, s | .and _ _, s | .xor _ _, s | .addReg _ _, s
  | .sub _ _, s | .shr _ _, s | .subn _ _, s | .shl _ _, s | .ldI _, s | .rnd _ _, s | .drw _ _ _, s | .ldVDt _, s
  | .ldDtV _, s | .ldStV _, s | .addI _, s | .ldF _, s | .ldB _, s | .ldMemV _, s | .ldVMem _, s => s.pc + 2

/-- The instruction is a skip and its condition holds (R103 to R106, R180, R181). -/
def Instr.skipTaken : Instr → State → Prop
  | .seImm x kk, s => s.getV x = kk
  | .sneImm x kk, s => s.getV x ≠ kk
  | .seReg x y _, s => s.getV x = s.getV y
  | .sneReg x y _, s => s.getV x ≠ s.getV y
  | .skp x, s => ∃ k : Fin 16, k.val = (s.getV x).toNat ∧ s.keyDown k = true
  | .sknp x, s => ∃ k : Fin 16, k.val = (s.getV x).toNat ∧ s.keyDown k = false
  | .cls _, _ | .ret _, _ | .jp _, _ | .call _, _ | .ldImm _ _, _ | .addImm _ _, _ | .ldReg _ _, _ | .or _ _, _ | .and _ _, _
  | .xor _ _, _ | .addReg _ _, _ | .sub _ _, _ | .shr _ _, _ | .subn _ _, _ | .shl _ _, _ | .ldI _, _ | .rnd _ _, _
  | .drw _ _ _, _ | .ldVDt _, _ | .ldDtV _, _ | .ldStV _, _ | .addI _, _ | .ldF _, _ | .ldB _, _ | .ldMemV _, _
  | .ldVMem _, _ => False

end Sys2Proof

namespace Sys2Proof.Machine

/-! ### The sprite of a draw -/

/-- Pixel (px, py) is one that a draw of `n` rows at the coordinates in Vx and Vy toggles: some set bit of some sprite
byte lands on it (R162, R164). -/
def State.spriteCovers (s : State) (x y n : Nibble) (px : Fin 64) (py : Fin 32) : Prop :=
  ∃ r c, r < n.toNat ∧ c < 8 ∧ (s.readByte (s.i.toNat + r)).toNat / 2 ^ (7 - c) % 2 = 1 ∧
    px.val = ((s.getV x).toNat + c) % 64 ∧ py.val = ((s.getV y).toNat + r) % 32

/-! ### The invariant of the reachable states -/

/-- Memory is in canonical form; the pc is at most two bytes past the end of memory, or past the 4096 bytes a jump reaches,
and every stack entry at most at the end of memory (R25, R100): so no pc arithmetic of a run ever wraps, for every
memory size that leaves room for it in 16 bits. -/
abbrev State.Inv (s : State) : Prop :=
  s.params.memSize ≤ 0xFFFD ∧ Memory.wf s.params s.mem = true ∧ s.pc.toNat ≤ max s.params.memSize 4096 + 2 ∧
    ∀ j : Fin 16, s.stack[j].toNat ≤ s.params.memSize

/-! ### Ends of a run (R226) -/

/-- The normal end of a run: no fault, and the pc holds a jump to its own address (R226, D37). -/
def State.normalEnd (s : State) : Prop :=
  s.fault = none ∧ s.fetchFault = none ∧ ∃ nnn : Addr12, decode s.fetchWord = .ok (.jp nnn) ∧ nnn.toNat = s.pc.toNat

/-- A failed run: a fatal error is recorded (R201, R226). -/
def State.faulted (s : State) : Prop := s.fault ≠ none

/-! ### State no instruction reads -/

/-- An outcome with its next state seen through `f`. -/
def mapNext {α : Type} (f : State → α) : Host.Outcome State Fault Refusal → Host.Outcome α Fault Refusal
  | .next t => .next (f t)
  | .fault r => .fault r
  | .refused r => .refused r

/-- The state without what only the host observes: the sound timer and the dirty flag (R30, R33, R39). -/
def State.hideHostOnly (s : State) : State := { s with st := 0, dirty := false }

end Sys2Proof.Machine
end

