-- ==== Sys2Proof/Certificates/Slice0/Obligations.lean ====
section
/-! DEFINITION. What is claimed of the core, for the provers: one definition per statement, from the numbered rules
of spec/. Where a clause rests on one of the spec's own decisions (92_eei_decisions.md), the docstring names it. -/

section

open Sys2Proof Sys2Proof.Machine

/-! ### Encoding (30_encoding.md) -/

/-- Words written out from the patterns of R75 and the vectors of 95_test_vectors.md (2.1 to 2.7) decode to the
instructions they stand for, and words of R78 do not decode. The class-8 and timer codes are D10 and D11, the
don't-care bits D22, the words absent from the table D21. -/
def Obligations.SpecWordsDecode : Prop :=
  decode 0x0AE0 = .ok (.cls 0xA) ∧ decode 0x00EE = .ok (.ret 0) ∧ decode 0x1ABC = .ok (.jp 0xABC) ∧
  decode 0x2ABC = .ok (.call 0xABC) ∧ decode 0x33FF = .ok (.seImm 3 0xFF) ∧ decode 0x4300 = .ok (.sneImm 3 0) ∧
  decode 0x5127 = .ok (.seReg 1 2 7) ∧ decode 0x6A9D = .ok (.ldImm 0xA 0x9D) ∧ decode 0x8F24 = .ok (.addReg 0xF 2) ∧
  decode 0x822E = .ok (.shl 2 2) ∧ decode 0xA300 = .ok (.ldI 0x300) ∧ decode 0xC30F = .ok (.rnd 3 0x0F) ∧
  decode 0xD125 = .ok (.drw 1 2 5) ∧ decode 0xE59E = .ok (.skp 5) ∧ decode 0xE0A1 = .ok (.sknp 0) ∧
  decode 0xF307 = .ok (.ldVDt 3) ∧ decode 0xF51E = .ok (.addI 5) ∧ decode 0xF333 = .ok (.ldB 3) ∧
  decode 0xF155 = .ok (.ldMemV 1) ∧ decode 0xF265 = .ok (.ldVMem 2) ∧
  decode 0xB123 = .error (.noInstruction 0xB123) ∧ decode 0x0123 = .error (.noInstruction 0x0123) ∧
  decode 0x8128 = .error (.noInstruction 0x8128) ∧ decode 0xF00A = .error (.noInstruction 0xF00A)

/-- Decode and encode agree: every instruction, with every operand at every value and every value of its don't-care
bits, is what its word decodes to (R72, R75, R79). That an instruction keeps its don't-care bits is the model's choice
(log entry 4). -/
def Obligations.DecodeOfEncode : Prop := ∀ i : Instr, decode (encode i) = .ok i

/-- A word that decodes is the word of its instruction: no bit of it is lost, so the word a fatal error records is the word
fetched (R200). That the don't-care bits are kept in the instruction, on which this rests, is the MODEL'S CHOICE (log
entry 4): R81's assembler emits them as zero. -/
def Obligations.EncodeOfDecode : Prop := ∀ (w : Word) (i : Instr), decode w = .ok i → encode i = w

/-- The words that are no instruction are exactly those R78 lists (the words absent from the table: D21), and each is
rejected as itself. -/
def Obligations.IllegalWordsExactly : Prop :=
  ∀ w : Word,
    ((∃ e, decode w = .error e) ↔
      (w.toNat / 4096 = 0x0 ∧ w.toNat % 256 ∉ [0xE0, 0xEE]) ∨
      (w.toNat / 4096 = 0x8 ∧ w.toNat % 16 ∈ [0x8, 0x9, 0xA, 0xB, 0xC, 0xD, 0xF]) ∨
      w.toNat / 4096 = 0xB ∨
      (w.toNat / 4096 = 0xE ∧ w.toNat % 256 ∉ [0x9E, 0xA1]) ∨
      (w.toNat / 4096 = 0xF ∧ w.toNat % 256 ∉ [0x07, 0x15, 0x18, 0x1E, 0x29, 0x33, 0x55, 0x65])) ∧
    ∀ e, decode w = .error e → e = .noInstruction w

/-! ### The instruction cycle (R83 to R87, R201, R208) -/

/-- The instruction cycle (R83, R84): a faulted core answers its error; a fetch outside memory takes `MemoryOutOfBounds` with the first
failing address, the pc and no word; else the two bytes at pc and pc + 1, as memory holds them, make the word; a word
with no instruction takes `DecodeError`; and the step of a word that decodes to `i` is `exec i` of the same state,
with nothing added around it. The host is returned Ok, or the error the step took (R86). That a taken error is a next
state, and the step of a faulted core the outcome `fault`, is the model's reading (DEDUCED, log entry 1); that a faulted
core does not step is D28, the byte order D6, what an error records and leaves R200 and R201 (D20). -/
def Obligations.StepRunsDecodedInstruction : Prop :=
  ∀ s : State,
    (∀ f, s.fault = some f → step s = .fault f) ∧
    (s.fault = none → s.params.memSize ≤ s.pc.toNat + 1 →
      step s = .next { s with fault := some (.memoryOutOfBounds s.pc none
        (if s.params.memSize ≤ s.pc.toNat then s.pc.toNat else s.pc.toNat + 1)) }) ∧
    (s.fault = none → s.pc.toNat + 1 < s.params.memSize →
      ∀ w : Word, w = s.readByte s.pc.toNat ++ s.readByte (s.pc.toNat + 1) →
        (∀ i, decode w = .ok i → step s = exec i s) ∧
        (∀ e, decode w = .error e → step s = .next { s with fault := some (.decodeError s.pc w) })) ∧
    (∀ t, step s = .next t → HostAction.reply s .step = match t.fault with | none => .ok | some f => .error f)

/-- A word placed where the core fetches next is what the next step runs (the model's own stand-in for loading, log entry
11, over R54 and R83). -/
def Obligations.PlacedWordRuns : Prop :=
  ∀ (s : State) (w : Nat) (i : Instr), s.fault = none → s.pc.toNat + 1 < s.params.memSize →
    decodeTableWord 16 w = some i → step (s.withFetchWord 16 w) = exec i (s.withFetchWord 16 w)

/-- A faulted core does not step and does not tick: it returns the same error and keeps its whole state (R201, R214; D28). -/
def Obligations.FaultedCoreIsAbsorbing : Prop :=
  ∀ (s : State) (f : Fault), s.fault = some f →
    step s = .fault f ∧ HostAction.reply s .step = .error f ∧ s.afterStep = s ∧ s.tick = s

/-- Every step of a core that is not faulted answers a next state: the core has no halt, no wait and nothing left without
a meaning (R83, R86, R225, R226). -/
def Obligations.UnfaultedStepCompletes : Prop := ∀ s : State, s.fault = none → ∃ t, step s = .next t

/-- Fatal errors are precise: a step that takes one changes nothing but the fault record (R201; D20). -/
def Obligations.FatalErrorIsPrecise : Prop :=
  ∀ (s t : State) (f : Fault), s.fault = none → step s = .next t → t.fault = some f → t = { s with fault := some f }

/-- Which fatal error a step can take, and what it records (R200, R208): the fetch's, else `DecodeError`, else the one
execution error of the decoded instruction, each with the pc, the fetched word, and the lowest address outside memory
where an access failed (R53, R84, R205). -/
def Obligations.FatalErrorCauses : Prop :=
  ∀ (s t : State) (f : Fault), s.fault = none → step s = .next t → t.fault = some f →
    (s.params.memSize ≤ s.pc.toNat + 1 ∧ f = .memoryOutOfBounds s.pc none (max s.pc.toNat s.params.memSize)) ∨
    (s.pc.toNat + 1 < s.params.memSize ∧ (∃ e, decode s.fetchWord = .error e) ∧ f = .decodeError s.pc s.fetchWord) ∨
    (s.pc.toNat + 1 < s.params.memSize ∧ ∃ i, decode s.fetchWord = .ok i ∧
      ((∃ z, i = .ret z ∧ s.sp = 0 ∧ f = .stackUnderflow s.pc s.fetchWord) ∨
       (∃ nnn, i = .call nnn ∧ s.sp = 15 ∧ f = .stackOverflow s.pc s.fetchWord) ∨
       (∃ x, (i = .skp x ∨ i = .sknp x) ∧ 16 ≤ (s.getV x).toNat ∧ f = .keyIndexOutOfRange s.pc s.fetchWord (s.getV x)) ∨
       (∃ x y n, i = .drw x y n ∧ s.params.memSize < s.i.toNat + n.toNat ∧
         f = .memoryOutOfBounds s.pc (some s.fetchWord) (max s.i.toNat s.params.memSize)) ∨
       (∃ x, i = .ldB x ∧ s.params.memSize ≤ s.i.toNat + 2 ∧
         f = .memoryOutOfBounds s.pc (some s.fetchWord) (max s.i.toNat s.params.memSize)) ∨
       (∃ x, (i = .ldMemV x ∨ i = .ldVMem x) ∧ s.params.memSize ≤ s.i.toNat + x.toNat ∧
         f = .memoryOutOfBounds s.pc (some s.fetchWord) (max s.i.toNat s.params.memSize))))

/-- R24, whole: how each instruction advances the pc, and that a fatal error leaves it. There is no generic post-step
increment: the step that runs `i` ends where `exec i` ends. -/
def Obligations.PcAdvancesByTable : Prop :=
  ∀ (i : Instr) (s t : State), s.fault = none → exec i s = .next t →
    (t.fault ≠ none → t.pc = s.pc) ∧ (t.fault = none → t.pc = i.newPc s) ∧
    (s.pc.toNat + 1 < s.params.memSize → decode s.fetchWord = .ok i → step s = .next t)

/-! ### Control flow (41_control_flow.md) -/

/-- R100: the encoding, the return, the underflow, and that nothing else changes (VF and the popped entry included). -/
def Obligations.RetPopsReturnAddress : Prop :=
  DecodesAs 0xF0FF 0x00EE (fun w => .ret (fieldX w)) ∧
  ∀ (z : Nibble) (s : State),
    (s.sp = 0 → exec (.ret z) s = .next { s with fault := some (.stackUnderflow s.pc (encode (.ret z))) }) ∧
    (s.sp ≠ 0 → ∃ t, exec (.ret z) s = .next t ∧ t.pc = s.stack[s.sp] ∧ t.sp.val + 1 = s.sp.val ∧
      UnchangedBut [.pc, .sp] s t)

/-- R101, whole: the encoding, the jump to `nnn` and nothing else; a jump to itself changes nothing; after a jump to 0xFFF
the next fetch takes `MemoryOutOfBounds` at 0x1000, the memory size being the 4096 of the rule. -/
def Obligations.JumpSetsPc : Prop :=
  DecodesAs 0xF000 0x1000 (fun w => .jp (fieldNnn w)) ∧
  ∀ (nnn : Addr12) (s : State), ∃ t, exec (.jp nnn) s = .next t ∧ t.pc.toNat = nnn.toNat ∧ UnchangedBut [.pc] s t ∧
    (s.pc.toNat = nnn.toNat → t = s) ∧
    (nnn = 0xFFF → s.fault = none → s.params.memSize = 4096 → step t = .next { t with fault := some (.memoryOutOfBounds 0xFFF none 0x1000) })

/-- 2nnn pushes the address after the call, SP incremented first, and jumps; with SP = 15 it takes `StackOverflow` and writes
nothing (R102, R203; the bound is D5). -/
def Obligations.CallPushesReturnAddress : Prop :=
  DecodesAs 0xF000 0x2000 (fun w => .call (fieldNnn w)) ∧
  ∀ (nnn : Addr12) (s : State),
    (s.sp = 15 → exec (.call nnn) s = .next { s with fault := some (.stackOverflow s.pc (encode (.call nnn))) }) ∧
    (s.sp ≠ 15 → ∃ t, exec (.call nnn) s = .next t ∧ t.pc.toNat = nnn.toNat ∧ t.sp.val = s.sp.val + 1 ∧
      (∀ j : Fin 16, t.stack[j] = if j.val = s.sp.val + 1 then s.pc + 2 else s.stack[j]) ∧
      UnchangedBut [.pc, .sp, .stack] s t)

/-- A call followed immediately by a return comes back to the instruction after the call with SP as before it, and leaves
nothing changed but the stack entry above (R102's round trip, R100). -/
def Obligations.CallThenReturn : Prop :=
  ∀ (nnn : Addr12) (z : Nibble) (s : State), s.sp ≠ 15 →
    ∃ t u, exec (.call nnn) s = .next t ∧ exec (.ret z) t = .next u ∧ u.pc = s.pc + 2 ∧
      (∀ j : Fin 16, j.val ≠ s.sp.val + 1 → u.stack[j] = s.stack[j]) ∧ UnchangedBut [.pc, .stack] s u

/-- R103 and R104, whole: 3xkk and 4xkk, their encodings, the unsigned comparison, and nothing else changed. -/
def Obligations.SkipOnImmediate : Prop :=
  DecodesAs 0xF000 0x3000 (fun w => .seImm (fieldX w) (fieldKk w)) ∧
  DecodesAs 0xF000 0x4000 (fun w => .sneImm (fieldX w) (fieldKk w)) ∧
  ∀ (x : Nibble) (kk : Byte) (s : State),
    (∃ t, exec (.seImm x kk) s = .next t ∧ t.pc = s.pc + (if (s.getV x).toNat = kk.toNat then 4 else 2) ∧
      UnchangedBut [.pc] s t) ∧
    (∃ t, exec (.sneImm x kk) s = .next t ∧ t.pc = s.pc + (if (s.getV x).toNat = kk.toNat then 2 else 4) ∧
      UnchangedBut [.pc] s t)

/-- R105 and R106, whole: 5xy0 and 9xy0, their encodings with bits 3:0 not examined, and nothing else changed; with x = y the
first always skips and the second never. -/
def Obligations.SkipOnRegister : Prop :=
  DecodesAs 0xF000 0x5000 (fun w => .seReg (fieldX w) (fieldY w) (fieldN w)) ∧
  DecodesAs 0xF000 0x9000 (fun w => .sneReg (fieldX w) (fieldY w) (fieldN w)) ∧
  ∀ (x y z : Nibble) (s : State),
    (∃ t, exec (.seReg x y z) s = .next t ∧
      t.pc = s.pc + (if x = y ∨ (s.getV x).toNat = (s.getV y).toNat then 4 else 2) ∧ UnchangedBut [.pc] s t) ∧
    (∃ t, exec (.sneReg x y z) s = .next t ∧
      t.pc = s.pc + (if x = y ∨ (s.getV x).toNat = (s.getV y).toNat then 2 else 4) ∧ UnchangedBut [.pc] s t)

/-- A skipped word is never fetched or decoded: whatever two bytes stand after a taken skip, any of the six, the step skips them
and raises nothing (R87; the spec derives it from R83 and R103). -/
def Obligations.SkippedWordIsNotDecoded : Prop :=
  ∀ (s : State) (i : Instr) (b0 b1 : Byte), s.fault = none → s.pc.toNat + 1 < s.params.memSize →
    decode s.fetchWord = .ok i → i.skipTaken s →
    ∃ t, step (s.storeBytes (s.pc.toNat + 2) [b0, b1]) = .next t ∧ t.pc = s.pc + 4 ∧ t.fault = none

/-! ### Register loads, ALU, random (42_alu.md) -/

/-- R120, R121 and R122, whole: 6xkk, 7xkk and 8xy0, their encodings, the value written (the sum modulo 256), no flag, and
nothing else changed; VF is written only as the destination. -/
def Obligations.LoadsAndAddImmediate : Prop :=
  DecodesAs 0xF000 0x6000 (fun w => .ldImm (fieldX w) (fieldKk w)) ∧
  DecodesAs 0xF000 0x7000 (fun w => .addImm (fieldX w) (fieldKk w)) ∧
  DecodesAs 0xF00F 0x8000 (fun w => .ldReg (fieldX w) (fieldY w)) ∧
  ∀ (x y : Nibble) (kk : Byte) (s : State),
    (∃ t, exec (.ldImm x kk) s = .next t ∧ t.getV x = kk ∧ t.pc = s.pc + 2 ∧
      (∀ r, r ≠ x → t.getV r = s.getV r) ∧ UnchangedBut [.regs, .pc] s t) ∧
    (∃ t, exec (.addImm x kk) s = .next t ∧ (t.getV x).toNat = ((s.getV x).toNat + kk.toNat) % 256 ∧ t.pc = s.pc + 2 ∧
      (∀ r, r ≠ x → t.getV r = s.getV r) ∧ UnchangedBut [.regs, .pc] s t) ∧
    (∃ t, exec (.ldReg x y) s = .next t ∧ t.getV x = s.getV y ∧ t.pc = s.pc + 2 ∧
      (∀ r, r ≠ x → t.getV r = s.getV r) ∧ UnchangedBut [.regs, .pc] s t)

/-- 8xy1, 8xy2, 8xy3 bit by bit; VF is written only as the destination (R123, R124, R125; that there is no flag is D13).
The codes 1, 2, 3 are D10. -/
def Obligations.LogicWritesNoFlag : Prop :=
  DecodesAs 0xF00F 0x8001 (fun w => .or (fieldX w) (fieldY w)) ∧
  DecodesAs 0xF00F 0x8002 (fun w => .and (fieldX w) (fieldY w)) ∧
  DecodesAs 0xF00F 0x8003 (fun w => .xor (fieldX w) (fieldY w)) ∧
  ∀ (x y : Nibble) (s : State),
    (∃ t, exec (.or x y) s = .next t ∧ (∀ k, (t.getV x).getLsbD k = ((s.getV x).getLsbD k || (s.getV y).getLsbD k)) ∧
      t.pc = s.pc + 2 ∧ (∀ r, r ≠ x → t.getV r = s.getV r) ∧ UnchangedBut [.regs, .pc] s t) ∧
    (∃ t, exec (.and x y) s = .next t ∧ (∀ k, (t.getV x).getLsbD k = ((s.getV x).getLsbD k && (s.getV y).getLsbD k)) ∧
      t.pc = s.pc + 2 ∧ (∀ r, r ≠ x → t.getV r = s.getV r) ∧ UnchangedBut [.regs, .pc] s t) ∧
    (∃ t, exec (.xor x y) s = .next t ∧
      (∀ k, (t.getV x).getLsbD k = ((s.getV x).getLsbD k ^^ (s.getV y).getLsbD k)) ∧
      t.pc = s.pc + 2 ∧ (∀ r, r ≠ x → t.getV r = s.getV r) ∧ UnchangedBut [.regs, .pc] s t)

/-- 8xy4: the sum modulo 256, and VF = 1 exactly when the unsigned sum exceeds 255, always written (R126). That the flag
remains when x = F, and that operands are read first, is D12; the code 4 is D10. -/
def Obligations.AddRegisterCarry : Prop :=
  DecodesAs 0xF00F 0x8004 (fun w => .addReg (fieldX w) (fieldY w)) ∧
  ∀ (x y : Nibble) (s : State), ∃ t, exec (.addReg x y) s = .next t ∧
    (x ≠ vf → (t.getV x).toNat = ((s.getV x).toNat + (s.getV y).toNat) % 256) ∧
    t.getV vf = (if 255 < (s.getV x).toNat + (s.getV y).toNat then 1 else 0) ∧
    t.pc = s.pc + 2 ∧ (∀ r, r ≠ x → r ≠ vf → t.getV r = s.getV r) ∧ UnchangedBut [.regs, .pc] s t

/-- 8xy5 and 8xy7: the difference modulo 256, and VF = 1 exactly when the minuend is strictly greater, always written (R127,
R129). That the flag remains when x = F is D12; that 8xy7's result is Vy - Vx the spec derives in R129;
the codes 5 and 7 are D10. -/
def Obligations.SubtractStrictFlag : Prop :=
  DecodesAs 0xF00F 0x8005 (fun w => .sub (fieldX w) (fieldY w)) ∧
  DecodesAs 0xF00F 0x8007 (fun w => .subn (fieldX w) (fieldY w)) ∧
  ∀ (x y : Nibble) (s : State),
    (∃ t, exec (.sub x y) s = .next t ∧
      (x ≠ vf → (t.getV x).toNat = ((s.getV x).toNat + 256 - (s.getV y).toNat) % 256) ∧
      t.getV vf = (if (s.getV x).toNat > (s.getV y).toNat then 1 else 0) ∧
      t.pc = s.pc + 2 ∧ (∀ r, r ≠ x → r ≠ vf → t.getV r = s.getV r) ∧ UnchangedBut [.regs, .pc] s t) ∧
    (∃ t, exec (.subn x y) s = .next t ∧
      (x ≠ vf → (t.getV x).toNat = ((s.getV y).toNat + 256 - (s.getV x).toNat) % 256) ∧
      t.getV vf = (if (s.getV y).toNat > (s.getV x).toNat then 1 else 0) ∧
      t.pc = s.pc + 2 ∧ (∀ r, r ≠ x → r ≠ vf → t.getV r = s.getV r) ∧ UnchangedBut [.regs, .pc] s t)

/-- 8xy6 and 8xyE: Vx shifted by one with zero fill, VF the bit shifted out, whatever y is (R128, R130; the mask 0x80 is C1).
That Vy is not read is D14, that the flag remains when x = F is D12, the code 6 is D10. What 8xyE does under another mask
is no rule of the spec: the parameter is R8's, and that it then reports 0 for no bit of the mask, 1 for all of it and
either value between is the MODEL'S CHOICE (log entry 8; 93_implementation_defined.md supports no claim about the last). -/
def Obligations.ShiftsTakeOldBit : Prop :=
  DecodesAs 0xF00F 0x8006 (fun w => .shr (fieldX w) (fieldY w)) ∧
  DecodesAs 0xF00F 0x800E (fun w => .shl (fieldX w) (fieldY w)) ∧
  ∀ (x y : Nibble) (s : State),
    (∃ t, exec (.shr x y) s = .next t ∧ (x ≠ vf → (t.getV x).toNat = (s.getV x).toNat / 2) ∧
      (t.getV vf).toNat = (s.getV x).toNat % 2 ∧
      t.pc = s.pc + 2 ∧ (∀ r, r ≠ x → r ≠ vf → t.getV r = s.getV r) ∧ UnchangedBut [.regs, .pc] s t) ∧
    (∃ t, exec (.shl x y) s = .next t ∧ (x ≠ vf → (t.getV x).toNat = (s.getV x).toNat * 2 % 256) ∧
      (s.params.shlFlagMask = 0x80 → (t.getV vf).toNat = (s.getV x).toNat / 128) ∧
      (s.getV x &&& s.params.shlFlagMask = 0 → t.getV vf = 0) ∧
      (s.params.shlFlagMask ≠ 0 → s.getV x &&& s.params.shlFlagMask = s.params.shlFlagMask → t.getV vf = 1) ∧
      (t.getV vf = 0 ∨ t.getV vf = 1) ∧
      t.pc = s.pc + 2 ∧ (∀ r, r ≠ x → r ≠ vf → t.getV r = s.getV r) ∧ UnchangedBut [.regs, .pc] s t)

/-- Cxkk: a fresh byte of the oracle, masked; the byte is a free value, so this holds for every byte (R131; D30). With kk = 0
the register is 0 whatever the byte, with kk = 0xFF it is the byte; the next draw is another. -/
def Obligations.RandomByteIsMasked : Prop :=
  DecodesAs 0xF000 0xC000 (fun w => .rnd (fieldX w) (fieldKk w)) ∧
  ∀ (x : Nibble) (kk : Byte) (s : State), ∃ t, exec (.rnd x kk) s = .next t ∧ t.getV x = s.drawByte &&& kk ∧
    (kk = 0 → t.getV x = 0) ∧ (kk = 0xFF → t.getV x = s.drawByte) ∧ t.draws ≠ s.draws ∧
    t.pc = s.pc + 2 ∧ (∀ r, r ≠ x → t.getV r = s.getV r) ∧ UnchangedBut [.regs, .pc] s t

/-! ### The address register and memory (43_index_memory.md, 20_memory.md) -/

/-- R140 and R142, whole: Annn and Fx29, their encodings, I's new value (Vx * 5, not reduced to a digit), and nothing else
changed; digit A in memory as reset leaves it, under any font, finds the glyph F0 90 F0 90 90. -/
def Obligations.LoadIndexAndGlyph : Prop :=
  DecodesAs 0xF000 0xA000 (fun w => .ldI (fieldNnn w)) ∧
  DecodesAs 0xF0FF 0xF029 (fun w => .ldF (fieldX w)) ∧
  (∀ (nnn : Addr12) (s : State), ∃ t, exec (.ldI nnn) s = .next t ∧ t.i.toNat = nnn.toNat ∧ t.pc = s.pc + 2 ∧
    UnchangedBut [.i, .pc] s t) ∧
  (∀ (x : Nibble) (s : State), ∃ t, exec (.ldF x) s = .next t ∧ t.i.toNat = (s.getV x).toNat * 5 ∧ t.pc = s.pc + 2 ∧
    UnchangedBut [.i, .pc] s t ∧
    ((s.getV x).toNat = 0xA → s.mem = State.reset.mem →
      t.i = 0x032 ∧ t.readBytes t.i.toNat 5 = [0xF0, 0x90, 0xF0, 0x90, 0x90]))

/-- Fx1E: I plus Vx modulo 2^16, no flag, no fault (R141; the wrap is D9). -/
def Obligations.AddToIndexWraps : Prop :=
  DecodesAs 0xF0FF 0xF01E (fun w => .addI (fieldX w)) ∧
  ∀ (x : Nibble) (s : State), ∃ t, exec (.addI x) s = .next t ∧
    t.i.toNat = (s.i.toNat + (s.getV x).toNat) % 65536 ∧ t.pc = s.pc + 2 ∧ UnchangedBut [.i, .pc] s t

/-- Fx33: the three decimal digits at I, I+1, I+2 and every other byte as before; with I + 2 outside memory
`MemoryOutOfBounds` at the lowest failing address and nothing written (R143, R52; that all is checked first is D20, that I
is unchanged is D19). -/
def Obligations.StoreDecimalDigits : Prop :=
  DecodesAs 0xF0FF 0xF033 (fun w => .ldB (fieldX w)) ∧
  ∀ (x : Nibble) (s : State),
    (s.i.toNat + 2 < s.params.memSize → ∃ t, exec (.ldB x) s = .next t ∧
      (t.readByte s.i.toNat).toNat = (s.getV x).toNat / 100 ∧
      (t.readByte (s.i.toNat + 1)).toNat = (s.getV x).toNat / 10 % 10 ∧
      (t.readByte (s.i.toNat + 2)).toNat = (s.getV x).toNat % 10 ∧
      (∀ a, a < s.i.toNat ∨ s.i.toNat + 2 < a → t.readByte a = s.readByte a) ∧
      t.pc = s.pc + 2 ∧ UnchangedBut [.mem, .pc] s t) ∧
    (s.params.memSize ≤ s.i.toNat + 2 →
      exec (.ldB x) s = .next { s with fault := some (.memoryOutOfBounds s.pc (some (encode (.ldB x)))
        (if s.params.memSize ≤ s.i.toNat then s.i.toNat else s.params.memSize)) })

/-- Fx55: V0..Vx at I.. and every other byte as before; with I + x outside memory `MemoryOutOfBounds` at the lowest failing
address and nothing written (R144, R52; D19, D20). -/
def Obligations.DumpRegisters : Prop :=
  DecodesAs 0xF0FF 0xF055 (fun w => .ldMemV (fieldX w)) ∧
  ∀ (x : Nibble) (s : State),
    (s.i.toNat + x.toNat < s.params.memSize → ∃ t, exec (.ldMemV x) s = .next t ∧
      (∀ r : Nibble, r.toNat ≤ x.toNat → t.readByte (s.i.toNat + r.toNat) = s.getV r) ∧
      (∀ a, a < s.i.toNat ∨ s.i.toNat + x.toNat < a → t.readByte a = s.readByte a) ∧
      t.pc = s.pc + 2 ∧ UnchangedBut [.mem, .pc] s t) ∧
    (s.params.memSize ≤ s.i.toNat + x.toNat →
      exec (.ldMemV x) s = .next { s with fault := some (.memoryOutOfBounds s.pc (some (encode (.ldMemV x)))
        (if s.params.memSize ≤ s.i.toNat then s.i.toNat else s.params.memSize)) })

/-- Fx65: V0..Vx from I.., the registers above Vx and all else as before; with I + x outside memory `MemoryOutOfBounds` at the
lowest failing address and no register written (R145, R52; D19, D20). -/
def Obligations.LoadRegisters : Prop :=
  DecodesAs 0xF0FF 0xF065 (fun w => .ldVMem (fieldX w)) ∧
  ∀ (x : Nibble) (s : State),
    (s.i.toNat + x.toNat < s.params.memSize → ∃ t, exec (.ldVMem x) s = .next t ∧
      (∀ r : Nibble, t.getV r = if r.toNat ≤ x.toNat then s.readByte (s.i.toNat + r.toNat) else s.getV r) ∧
      t.pc = s.pc + 2 ∧ UnchangedBut [.regs, .pc] s t) ∧
    (s.params.memSize ≤ s.i.toNat + x.toNat →
      exec (.ldVMem x) s = .next { s with fault := some (.memoryOutOfBounds s.pc (some (encode (.ldVMem x)))
        (if s.params.memSize ≤ s.i.toNat then s.i.toNat else s.params.memSize)) })

/-- A register dump followed by a register load of the same range gives every register back (R144, R145, R61). -/
def Obligations.DumpThenLoadRestores : Prop :=
  ∀ (x : Nibble) (s : State) (m : Vector Byte 16), s.i.toNat + x.toNat < s.params.memSize →
    ∃ t u, exec (.ldMemV x) s = .next t ∧ exec (.ldVMem x) { t with v := m } = .next u ∧
      ∀ r : Nibble, r.toNat ≤ x.toNat → u.getV r = s.getV r

/-- A stored word is fetched as stored by the very next instruction: a register dump over the next instruction's two bytes
changes what the next step runs (R64, R245; the spec derives it, D34). -/
def Obligations.StoredWordIsFetchedNext : Prop :=
  ∀ (x r : Nibble) (s : State) (i : Instr), s.fault = none → s.i.toNat + x.toNat < s.params.memSize →
    r.toNat + 1 ≤ x.toNat → (s.pc + 2).toNat = s.i.toNat + r.toNat → decode (s.getV r ++ s.getV (r + 1)) = .ok i →
    ∃ t, exec (.ldMemV x) s = .next t ∧ step t = exec i t

/-! ### The framebuffer controller (44_display.md) -/

/-- R161, whole: the encoding with bits 11:8 not examined, every pixel 0, dirty true even when it was all 0 before, VF and all
else unchanged. -/
def Obligations.ClearDisplay : Prop :=
  DecodesAs 0xF0FF 0x00E0 (fun w => .cls (fieldX w)) ∧
  ∀ (z : Nibble) (s : State), ∃ t, exec (.cls z) s = .next t ∧ (∀ x y, t.pixel x y = false) ∧ t.dirty = true ∧
    t.pc = s.pc + 2 ∧ UnchangedBut [.pixels, .dirty, .pc] s t

/-- R163's rule: dirty is set by 00E0 and by every Dxyn that completes, whether or not a pixel changed, by nothing else, and no
step clears it; the host does. -/
def Obligations.DirtySetOnlyByDisplay : Prop :=
  (∀ (z : Nibble) (s : State), ∃ t, exec (.cls z) s = .next t ∧ t.dirty = true) ∧
  (∀ (x y n : Nibble) (s : State), n = 0 ∨ s.i.toNat + n.toNat ≤ s.params.memSize →
    ∃ t, exec (.drw x y n) s = .next t ∧ t.dirty = true) ∧
  (∀ (i : Instr) (s t : State), exec i s = .next t → (∀ z, i ≠ .cls z) → (∀ x y n, i ≠ .drw x y n) → t.dirty = s.dirty) ∧
  (∀ s t : State, step s = .next t → s.dirty = true → t.dirty = true) ∧
  (∀ s : State, s.tick.dirty = s.dirty ∧ (∀ k p, (s.setKey k p).dirty = s.dirty) ∧ s.markConsumed.dirty = false)

/-- Dxyn, pixel by pixel: the nested loops of R162 toggle exactly the pixels the sprite's set bits cover, with wraparound on both
axes; VF is 1 exactly when a covered pixel was lit, else 0, always written; dirty is true; I and all else is unchanged;
a sprite byte outside memory takes `MemoryOutOfBounds` and changes nothing. The bit order and the wrap of the start
coordinates are D15, n = 0 is D16, the check before all writes is D20. -/
def Obligations.DrawTogglesSpritePixels : Prop :=
  DecodesAs 0xF000 0xD000 (fun w => .drw (fieldX w) (fieldY w) (fieldN w)) ∧
  ∀ (x y n : Nibble) (s : State),
    (n = 0 ∨ s.i.toNat + n.toNat ≤ s.params.memSize → ∃ t, exec (.drw x y n) s = .next t ∧
      (∀ px py, t.pixel px py ≠ s.pixel px py ↔ s.spriteCovers x y n px py) ∧
      ((∃ px py, s.spriteCovers x y n px py ∧ s.pixel px py = true) → t.getV vf = 1) ∧
      ((∀ px py, s.spriteCovers x y n px py → s.pixel px py = false) → t.getV vf = 0) ∧
      t.dirty = true ∧ t.pc = s.pc + 2 ∧ (∀ r, r ≠ vf → t.getV r = s.getV r) ∧
      UnchangedBut [.regs, .pixels, .dirty, .pc] s t) ∧
    (n ≠ 0 → s.params.memSize < s.i.toNat + n.toNat →
      exec (.drw x y n) s = .next { s with fault := some (.memoryOutOfBounds s.pc (some (encode (.drw x y n)))
        (if s.params.memSize ≤ s.i.toNat then s.i.toNat else s.params.memSize)) })

/-- Drawing the same sprite twice restores every pixel; on a dark screen the second draw collides exactly when the sprite has a
set bit (R162's example; with x = F or y = F the first draw changes a coordinate). -/
def Obligations.DrawTwiceRestores : Prop :=
  ∀ (x y n : Nibble) (s : State), x ≠ vf → y ≠ vf → s.i.toNat + n.toNat ≤ s.params.memSize →
    ∃ t u, exec (.drw x y n) s = .next t ∧ exec (.drw x y n) t = .next u ∧
      (∀ px py, u.pixel px py = s.pixel px py) ∧
      ((∀ px py, s.pixel px py = false) →
        (u.getV vf = 1 ↔ ∃ r c, r < n.toNat ∧ c < 8 ∧ (s.readByte (s.i.toNat + r)).getLsbD c = true))

/-! ### Input and timers (45_input_timers.md) -/

/-- Ex9E: a pressed key is released and the skip taken, else no skip; Vx >= 16 takes `KeyIndexOutOfRange` and writes nothing
(R180, R207; the error is D17). -/
def Obligations.SkipIfPressedConsumes : Prop :=
  DecodesAs 0xF0FF 0xE09E (fun w => .skp (fieldX w)) ∧
  ∀ (x : Nibble) (s : State),
    (∀ k : Fin 16, k.val = (s.getV x).toNat → ∃ t, exec (.skp x) s = .next t ∧
      t.pc = s.pc + (if s.keyDown k = true then 4 else 2) ∧ t.keyDown k = false ∧
      (∀ j, j ≠ k → t.keyDown j = s.keyDown j) ∧ UnchangedBut [.pc, .keys] s t) ∧
    (16 ≤ (s.getV x).toNat →
      exec (.skp x) s = .next { s with fault := some (.keyIndexOutOfRange s.pc (encode (.skp x)) (s.getV x)) })

/-- ExA1: a skip on a released key; on a pressed key no skip, and the key released if the parameter EXA1_CONSUMES says so;
Vx >= 16 takes `KeyIndexOutOfRange` and writes nothing (R181, R207, R8; the parameter is D18, the error D17). -/
def Obligations.SkipIfNotPressed : Prop :=
  DecodesAs 0xF0FF 0xE0A1 (fun w => .sknp (fieldX w)) ∧
  ∀ (x : Nibble) (s : State),
    (∀ k : Fin 16, k.val = (s.getV x).toNat → ∃ t, exec (.sknp x) s = .next t ∧
      t.pc = s.pc + (if s.keyDown k = true then 2 else 4) ∧
      (s.params.exa1Consumes = true → t.keyDown k = false) ∧
      (s.params.exa1Consumes = false → t.keyDown k = s.keyDown k) ∧
      (∀ j, j ≠ k → t.keyDown j = s.keyDown j) ∧ UnchangedBut [.pc, .keys] s t) ∧
    (16 ≤ (s.getV x).toNat →
      exec (.sknp x) s = .next { s with fault := some (.keyIndexOutOfRange s.pc (encode (.sknp x)) (s.getV x)) })

/-- The press is observed once: after set_key(k, true), Ex9E with Vx = k skips, get_key(k) then reads released, and a second Ex9E
does not skip (R180's property, R216, R217, R247). -/
def Obligations.PressIsObservedOnce : Prop :=
  ∀ (x : Nibble) (s : State) (k : Fin 16), k.val = (s.getV x).toNat →
    ∃ t u, exec (.skp x) (s.setKey k true) = .next t ∧ t.pc = s.pc + 4 ∧ HostAction.reply t (.getKey k) = .key false ∧
      exec (.skp x) t = .next u ∧ u.pc = t.pc + 2

/-- Fx07, Fx15, Fx18: the byte moved and nothing else changed (R182, R183, R184; that the codes are 07, 15 and 18 is D11). -/
def Obligations.TimerMoves : Prop :=
  DecodesAs 0xF0FF 0xF007 (fun w => .ldVDt (fieldX w)) ∧
  DecodesAs 0xF0FF 0xF015 (fun w => .ldDtV (fieldX w)) ∧
  DecodesAs 0xF0FF 0xF018 (fun w => .ldStV (fieldX w)) ∧
  ∀ (x : Nibble) (s : State),
    (∃ t, exec (.ldVDt x) s = .next t ∧ t.getV x = s.dt ∧ t.pc = s.pc + 2 ∧ (∀ r, r ≠ x → t.getV r = s.getV r) ∧
      UnchangedBut [.regs, .pc] s t) ∧
    (∃ t, exec (.ldDtV x) s = .next t ∧ t.dt = s.getV x ∧ t.pc = s.pc + 2 ∧ UnchangedBut [.dt, .pc] s t) ∧
    (∃ t, exec (.ldStV x) s = .next t ∧ t.st = s.getV x ∧ t.pc = s.pc + 2 ∧ UnchangedBut [.st, .pc] s t)

/-- After any number of ticks of an unfaulted core each timer holds its old value less that number, never below 0, and nothing
else has changed (R214; that the tick is a host action is D27). -/
def Obligations.TicksCountDown : Prop :=
  ∀ (s : State) (n : Nat), s.fault = none →
    (hostRun s (List.replicate n .tick)).dt.toNat = s.dt.toNat - n ∧
    (hostRun s (List.replicate n .tick)).st.toNat = s.st.toNat - n ∧
    UnchangedBut [.dt, .st] s (hostRun s (List.replicate n .tick))

/-! ### Host interface and reset (60_exceptions.md, 70_reset_and_hazards.md) -/

/-- R217, R218 and R219, whole: get_key and inspect_framebuffer return what the state holds and change nothing; mark_consumed
clears dirty. (Each changes nothing else; so does set_key, which writes one slot with either value, R216.) -/
def Obligations.HostObservesAndConsumes : Prop :=
  ∀ (s : State) (k : Fin 16) (p : Bool),
    HostAction.reply s (.getKey k) = .key (s.keyDown k) ∧ HostAction.apply s (.getKey k) = s ∧
    HostAction.reply s .inspectFramebuffer = .picture s.fb s.dirty ∧ HostAction.apply s .inspectFramebuffer = s ∧
    (HostAction.apply s .markConsumed).dirty = false ∧ UnchangedBut [.dirty] s (HostAction.apply s .markConsumed) ∧
    (∀ j, (HostAction.apply s (.setKey k p)).keyDown j = if j = k then p else s.keyDown j) ∧
    UnchangedBut [.keys] s (HostAction.apply s (.setKey k p))

/-- What reset leaves (R37, R36, R58), under any parameters: every register, entry, timer, slot and pixel 0, the pc at
PROGRAM_BASE, the font at the lowest addresses with glyph A at 0x032, and 0 elsewhere, no fault. The latch, framebuffer
and dirty flag are D23. Reset is `initialize` of an empty image (R241; that it is, log entry 11). `State.reset` has the
values of R8: 4096 (D1), 0x200 (D2), the font of R36 (D3), 0x80 (C1), true (D18). -/
def Obligations.ResetState : Prop :=
  (∀ p : Params, let s := State.resetWith p
    (∀ r, s.getV r = 0) ∧ s.i = 0 ∧ s.pc = p.programBase ∧ s.sp = 0 ∧
    (∀ j : Fin 16, s.stack[j] = 0) ∧ s.dt = 0 ∧ s.st = 0 ∧
    (∀ k, s.keyDown k = false) ∧ (∀ x y, s.pixel x y = false) ∧ s.dirty = false ∧
    s.readBytes 0x032 5 = [0xF0, 0x90, 0xF0, 0x90, 0x90] ∧
    s.readBytes 0 80 = p.font.bytes ∧ (∀ a, 80 ≤ a → s.readByte a = 0) ∧
    s.fault = none ∧ s.params = p ∧ (p.programBase.toNat ≤ p.memSize → s.initCore (some []) = s)) ∧
  State.reset = State.resetWith State.reset.params ∧ State.reset.params.memSize = 4096 ∧ State.reset.pc = 0x200 ∧
  State.reset.readBytes 0 5 = [0xF0, 0x90, 0x90, 0x90, 0xF0] ∧
  State.reset.readBytes 0x04B 5 = [0xF0, 0x80, 0xF0, 0x80, 0x80] ∧
  State.reset.params.shlFlagMask = 0x80 ∧ State.reset.params.exa1Consumes = true

/-- `initialize` of an image of at most MEM_SIZE - PROGRAM_BASE bytes, from any state under any parameters: the image from
PROGRAM_BASE on, the font at the lowest addresses, 0 elsewhere, every other piece of state as reset leaves it, and the
reply Ok (R240, R37; D23, D24). That initialize replies at all is the MODEL'S CHOICE (log entry 17). -/
def Obligations.InitializeLoadsImage : Prop :=
  ∀ (s : State) (image : List Byte), s.params.programBase.toNat + image.length ≤ s.params.memSize →
    (∀ a, (s.initCore (some image)).readByte a =
      if s.params.programBase.toNat ≤ a ∧ a < s.params.programBase.toNat + image.length
        then image[a - s.params.programBase.toNat]?.getD 0
        else (State.resetWith s.params).readByte a) ∧
    UnchangedBut [.mem] (State.resetWith s.params) (s.initCore (some image)) ∧
    HostAction.reply s (.initCore (some image)) = .ok

/-- `initialize` of an image that is missing, or longer than MEM_SIZE - PROGRAM_BASE bytes, leaves the core faulted with
`ProgramLoadFailure`, and no step runs (R206, R241; the length limit is D24; what is recorded of a missing image, and that
nothing else changes, is the model's choice, log entry 13; that initialize returns the error, where R241 only records it, is
the MODEL'S CHOICE, log entry 17). -/
def Obligations.InitializeRefusesImage : Prop :=
  ∀ (s : State) (p : Option (List Byte)) (len : Option Nat), len = p.map List.length →
    (∀ n, len = some n → s.params.memSize < s.params.programBase.toNat + n) →
    s.initCore p = { s with fault := some (.programLoadFailure len) } ∧
    HostAction.reply s (.initCore p) = .error (.programLoadFailure len) ∧
    step (s.initCore p) = .fault (.programLoadFailure len)

/-- The first step after a successful `initialize` runs the image's first word, its first byte the high byte, wherever
PROGRAM_BASE is (R242, R240; D2, D6). -/
def Obligations.FirstStepRunsFirstWord : Prop :=
  ∀ (s : State) (hi lo : Byte) (rest : List Byte) (i : Instr),
    s.params.programBase.toNat + rest.length + 2 ≤ s.params.memSize → decode (hi ++ lo) = .ok i →
    step (s.initCore (some (hi :: lo :: rest))) = exec i (s.initCore (some (hi :: lo :: rest)))

/-! ### Invariants and whole-machine rules -/

/-- The invariant holds at reset, under the default parameters and under any whose program base lies inside memory. -/
def Obligations.ResetMeetsInvariant : Prop :=
  State.reset.Inv ∧ ∀ p : Params, p.memSize ≤ 0xFFFD → p.programBase.toNat ≤ p.memSize → (State.resetWith p).Inv

/-- Every step keeps the invariant: memory stays in canonical form, the pc at most two bytes past the end of memory (or past
the 4096 bytes a jump reaches) and every stack entry at most at its end, so that no pc arithmetic of a run wraps (R25,
R100; the canonical form is the model's, log entry 10; that a memory size fits the pc's 16 bits is log entry 5). -/
def Obligations.StepKeepsInvariant : Prop := ∀ s t : State, s.Inv → step s = .next t → t.Inv

/-- Every interleaving of host actions keeps the invariant (R222; D26). -/
def Obligations.HostRunKeepsInvariant : Prop := ∀ (as : List HostAction) (s : State), s.Inv → (hostRun s as).Inv

/-- Which registers each instruction writes (R22's last column, R21): a register outside it keeps its value. -/
def Obligations.RegistersWrittenByTable : Prop :=
  ∀ (i : Instr) (s t : State) (r : Nibble), exec i s = .next t → ¬ i.writesV r → t.getV r = s.getV r

/-- Only Fx33 and Fx55 write memory, and only where R51 says, from I as it was before; every other byte reads as before (R51, R57). -/
def Obligations.MemoryWrittenByTable : Prop :=
  ∀ (i : Instr) (s t : State) (a : Nat), exec i s = .next t → ¬ i.writesMem s a → t.readByte a = s.readByte a

/-- Only Annn, Fx1E and Fx29 change I; Fx33, Fx55, Fx65 and Dxyn leave it (R26; D19). -/
def Obligations.IndexWrittenOnlyByItsInstructions : Prop :=
  ∀ (i : Instr) (s t : State), exec i s = .next t → t.i ≠ s.i →
    (∃ nnn, i = .ldI nnn) ∨ (∃ x, i = .addI x) ∨ (∃ x, i = .ldF x)

/-- Only 2nnn and 00EE change SP, only 2nnn a stack entry, and no instruction entry 0 (R27, R28; the spec derives the last). -/
def Obligations.StackWrittenOnlyByCallAndReturn : Prop :=
  ∀ (i : Instr) (s t : State), exec i s = .next t →
    (t.sp ≠ s.sp → (∃ nnn, i = .call nnn) ∨ ∃ z, i = .ret z) ∧
    (∀ j : Fin 16, t.stack[j] ≠ s.stack[j] → ∃ nnn, i = .call nnn) ∧
    t.stack[(0 : Fin 16)] = s.stack[(0 : Fin 16)]

/-- No instruction but Fx15 writes DT and none but Fx18 writes ST; only Ex9E and ExA1 change a latch slot, only the one Vx names,
and only from pressed to released; only 00E0 and Dxyn change a pixel (R29, R30, R31, R32, R185). -/
def Obligations.DevicesWrittenOnlyByTheirInstructions : Prop :=
  ∀ (i : Instr) (s t : State), exec i s = .next t →
    (t.dt ≠ s.dt → ∃ x, i = .ldDtV x) ∧ (t.st ≠ s.st → ∃ x, i = .ldStV x) ∧
    (∀ k, t.keyDown k ≠ s.keyDown k →
      (∃ x, (i = .skp x ∨ i = .sknp x) ∧ k.val = (s.getV x).toNat) ∧ s.keyDown k = true ∧ t.keyDown k = false) ∧
    (∀ px py, t.pixel px py ≠ s.pixel px py → (∃ z, i = .cls z) ∨ ∃ x y n, i = .drw x y n)

/-- No instruction reads the sound timer or the dirty flag: two states that differ in them alone step alike, but for what of the
two they carry along (R30, R33, R39). The two runs get the SAME oracle answer, since their draw counters agree: that is the
MODEL'S CHOICE (log entry 3, unsafe for claims that compare two runs), and the case of Cxkk rests on it. -/
def Obligations.SoundTimerAndDirtyAreNotRead : Prop :=
  ∀ (s : State) (st : Byte) (dirty : Bool),
    mapNext State.hideHostOnly (step { s with st := st, dirty := dirty }) = mapNext State.hideHostOnly (step s)

/-- The framebuffer is read by Dxyn alone: every other instruction, run on states that differ in their framebuffers alone, gives
states that agree in all else (R32). The two runs get the SAME oracle answer, since their draw counters agree: that is the
MODEL'S CHOICE (log entry 3, unsafe for claims that compare two runs), and the case of Cxkk rests on it. -/
def Obligations.FramebufferReadOnlyByDraw : Prop :=
  ∀ (i : Instr) (s : State) (fb : Framebuffer), (∀ x y n, i ≠ .drw x y n) →
    mapNext (fun t => { t with fb := Framebuffer.dark }) (exec i { s with fb := fb }) =
      mapNext (fun t => { t with fb := Framebuffer.dark }) (exec i s)

/-- At the normal end of a run every step leaves the whole state as it is (R226, R101; that this is the normal end is D37). -/
def Obligations.NormalEndIsStable : Prop :=
  ∀ (s : State) (n : Nat), s.normalEnd → step s = .next s ∧ hostRun s (List.replicate n .step) = s

/-- The parameters are arguments of the step relation and not state (R40): no step, no instruction and no host action writes
them. (That the state carries them is the model's choice, log entry 16.) -/
def Obligations.ParametersAreFixed : Prop :=
  (∀ s t : State, step s = .next t → t.params = s.params) ∧
  (∀ (i : Instr) (s t : State), exec i s = .next t → t.params = s.params) ∧
  ∀ (as : List HostAction) (s : State), (hostRun s as).params = s.params

end
end

