-- ==== Sys2Proof/Laws/Decode.lean ====
section
/-! SUPPORT. The fields of an assembled word, a word rebuilt from its fields, the fields under a mask, and
the two bytes of a word. -/

namespace Sys2Proof

/-! ### Fields of an assembled word (R71, R72) -/

theorem opClass_formXKK (c x : Nibble) (kk : Byte) : opClass (formXKK c x kk) = c := by
  simp only [opClass, formXKK]; ext i hi; simp; grind

theorem fieldX_formXKK (c x : Nibble) (kk : Byte) : fieldX (formXKK c x kk) = x := by
  simp only [fieldX, formXKK]; ext i hi; simp; grind

theorem fieldKk_formXKK (c x : Nibble) (kk : Byte) : fieldKk (formXKK c x kk) = kk := by
  simp only [fieldKk, formXKK]; ext i hi; simp; grind

theorem opClass_formNNN (c : Nibble) (nnn : Addr12) : opClass (formNNN c nnn) = c := by
  simp only [opClass, formNNN]; ext i hi; simp
  exact (BitVec.getLsbD_append ..).trans (by simp [BitVec.getLsbD_eq_getElem hi])

theorem fieldNnn_formNNN (c : Nibble) (nnn : Addr12) : fieldNnn (formNNN c nnn) = nnn := by
  simp only [fieldNnn, formNNN]; ext i hi; simp; grind

theorem opClass_formXYN (c x y n : Nibble) : opClass (formXYN c x y n) = c := by
  simp only [opClass, formXYN]; ext i hi; simp; grind

theorem fieldX_formXYN (c x y n : Nibble) : fieldX (formXYN c x y n) = x := by
  simp only [fieldX, formXYN]; ext i hi; simp; grind

theorem fieldY_formXYN (c x y n : Nibble) : fieldY (formXYN c x y n) = y := by
  simp only [fieldY, formXYN]; ext i hi; simp; grind

theorem fieldN_formXYN (c x y n : Nibble) : fieldN (formXYN c x y n) = n := by
  simp only [fieldN, formXYN]; ext i hi; simp; grind

/-! ### A word rebuilt from its fields -/

theorem formXKK_fields (w : Word) : formXKK (opClass w) (fieldX w) (fieldKk w) = w := by
  simp only [formXKK, opClass, fieldX, fieldKk]; ext i hi; simp; grind

theorem formNNN_fields (w : Word) : formNNN (opClass w) (fieldNnn w) = w := by
  simp only [formNNN, opClass, fieldNnn]; ext i hi; simp; grind

theorem formXYN_fields (w : Word) : formXYN (opClass w) (fieldX w) (fieldY w) (fieldN w) = w := by
  simp only [formXYN, opClass, fieldX, fieldY, fieldN]; ext i hi; simp; grind

/-- A word of a format, from what its fixed fields are. -/
theorem formXKK_of {w : Word} {c : Nibble} {kk : Byte} (hc : opClass w = c) (hk : fieldKk w = kk) :
    formXKK c (fieldX w) kk = w := by
  subst hc; subst hk; exact formXKK_fields w

theorem formNNN_of {w : Word} {c : Nibble} (hc : opClass w = c) : formNNN c (fieldNnn w) = w := by
  subst hc; exact formNNN_fields w

theorem formXYN_of {w : Word} {c n : Nibble} (hc : opClass w = c) (hn : fieldN w = n) :
    formXYN c (fieldX w) (fieldY w) n = w := by
  subst hc; subst hn; exact formXYN_fields w

/-! ### Fields under a mask (the opcode table's form of an encoding) -/

theorem opClass_and (w m : Word) : opClass (w &&& m) = opClass w &&& opClass m := by
  simp only [opClass]; ext i hi; simp

theorem fieldX_and (w m : Word) : fieldX (w &&& m) = fieldX w &&& fieldX m := by
  simp only [fieldX]; ext i hi; simp

theorem fieldY_and (w m : Word) : fieldY (w &&& m) = fieldY w &&& fieldY m := by
  simp only [fieldY]; ext i hi; simp

theorem fieldNnn_and (w m : Word) : fieldNnn (w &&& m) = fieldNnn w &&& fieldNnn m := by
  simp only [fieldNnn]; ext i hi; simp

theorem fieldKk_and (w m : Word) : fieldKk (w &&& m) = fieldKk w &&& fieldKk m := by
  simp only [fieldKk]; ext i hi; simp

theorem fieldN_and (w m : Word) : fieldN (w &&& m) = fieldN w &&& fieldN m := by
  simp only [fieldN]; ext i hi; simp

/-- The class of a word whose top four bits a mask fixes. -/
theorem opClass_of_mask {w m p : Word} {c : Nibble} (h : w &&& m = p) (hm : opClass m = 0xF) (hp : opClass p = c) :
    opClass w = c := by
  rw [← hp, ← h, opClass_and, hm]; ext i hi; simp; interval_cases i <;> simp

/-- The low byte of a word whose low eight bits a mask fixes. -/
theorem fieldKk_of_mask {w m p : Word} {kk : Byte} (h : w &&& m = p) (hm : fieldKk m = 0xFF) (hp : fieldKk p = kk) :
    fieldKk w = kk := by
  rw [← hp, ← h, fieldKk_and, hm]; ext i hi; simp; interval_cases i <;> simp

/-- The low nibble of a word whose low four bits a mask fixes. -/
theorem fieldN_of_mask {w m p : Word} {n : Nibble} (h : w &&& m = p) (hm : fieldN m = 0xF) (hp : fieldN p = n) :
    fieldN w = n := by
  rw [← hp, ← h, fieldN_and, hm]; ext i hi; simp; interval_cases i <;> simp

/-! ### The fields as numbers -/

theorem toNat_opClass (w : Word) : (opClass w).toNat = w.toNat / 4096 := by
  have := w.isLt; simp [opClass, Nat.shiftRight_eq_div_pow]; omega

theorem toNat_fieldX (w : Word) : (fieldX w).toNat = w.toNat / 256 % 16 := by
  simp [fieldX, Nat.shiftRight_eq_div_pow]

theorem toNat_fieldN (w : Word) : (fieldN w).toNat = w.toNat % 16 := by simp [fieldN]

theorem toNat_fieldKk (w : Word) : (fieldKk w).toNat = w.toNat % 256 := by simp [fieldKk]

theorem toNat_fieldNnn (w : Word) : (fieldNnn w).toNat = w.toNat % 4096 := by simp [fieldNnn]

/-! ### The two bytes of a word (R54) -/

@[simp] theorem wordOfBytes_bytes (w : Word) : wordOfBytes (highByte w) (lowByte w) = w := by
  simp only [wordOfBytes, highByte, lowByte]; ext i hi; simp; grind

@[simp] theorem highByte_wordOfBytes (hi lo : Byte) : highByte (wordOfBytes hi lo) = hi := by
  simp only [wordOfBytes, highByte]; ext i h; simp
  exact (BitVec.getLsbD_append ..).trans (by simp [BitVec.getLsbD_eq_getElem h])

@[simp] theorem lowByte_wordOfBytes (hi lo : Byte) : lowByte (wordOfBytes hi lo) = lo := by
  simp only [wordOfBytes, lowByte]; ext i h; simp; grind

/-- The instruction of an encoded word's two bytes is the decoding of the word. -/
theorem decodeTableWord_eq (nbits w : Nat) : decodeTableWord nbits w = (decode (tableWord nbits w)).toOption := by
  simp only [decodeTableWord, decodeBytes, wordOfBytes_bytes]
  cases decode (tableWord nbits w) <;> rfl

end Sys2Proof
end

