-- ==== Sys2Proof/Laws/Memory.lean ====
section
/-! SUPPORT. The laws of memory: a read after a write, the bytes of a multi-byte transfer, and that every
memory operation keeps the canonical form. -/

namespace Sys2Proof.Machine

variable {p : Params}

/-! ### Reading after writing (R57, R61) -/

theorem Memory.read_erase (m : Memory) (a k : Nat) :
    Memory.read p (Memory.erase a m) k = if k = a then resetByte p a else Memory.read p m k := by
  induction m with
  | nil => grind [Memory.erase, Memory.read]
  | cons c m ih => grind [Memory.erase, Memory.read]

theorem Memory.read_insert (m : Memory) (a k : Nat) (b : Byte)
    (hm : Memory.erase a m = m) : Memory.read p (Memory.insert a b m) k = if k = a then b else Memory.read p m k := by
  induction m with
  | nil => simp [Memory.insert, Memory.read]
  | cons c m ih =>
    obtain ⟨j, d⟩ := c
    have hj : a ≠ j := by
      intro e; subst e
      have hl : (Memory.erase a m).length ≤ m.length := by
        clear ih hm
        induction m with
        | nil => simp [Memory.erase]
        | cons c m ih => obtain ⟨j, b⟩ := c; simp only [Memory.erase]; split <;> simp <;> omega
      have := congrArg List.length hm
      simp [Memory.erase] at this; omega
    have hm' : Memory.erase a m = m := by simpa [Memory.erase, hj] using hm
    unfold Memory.insert
    split
    · simp [Memory.read]
    · simp only [Memory.read, ih hm']
      by_cases hk : k = j
      · subst hk; simp [Ne.symm hj]
      · simp [hk]

theorem Memory.erase_erase (m : Memory) (a : Nat) : Memory.erase a (Memory.erase a m) = Memory.erase a m := by
  induction m with
  | nil => rfl
  | cons c m ih =>
    obtain ⟨j, b⟩ := c
    by_cases h : a = j <;> simp [Memory.erase, h, ih]
    simpa [h] using ih

/-- A read after a write: the byte written at its address, and every other byte as before. -/
theorem Memory.read_write (m : Memory) (a k : Nat) (b : Byte) :
    Memory.read p (Memory.write p m a b) k = if k = a then b else Memory.read p m k := by
  unfold Memory.write
  split
  · next h => rw [Memory.read_erase]; simp [h]
  · rw [Memory.read_insert _ _ _ _ (Memory.erase_erase m a), Memory.read_erase]
    by_cases h : k = a <;> simp [h]

/-- A read after a multi-byte store: the byte of the list that stands there, and every other byte as before (R55). -/
theorem Memory.read_writeBytes (m : Memory) (a k : Nat) (bs : List Byte) :
    Memory.read p (Memory.writeBytes p m a bs) k = if a ≤ k then bs[k - a]?.getD (Memory.read p m k) else Memory.read p m k := by
  induction bs generalizing m a with
  | nil => simp [Memory.writeBytes]
  | cons b bs ih =>
    rw [Memory.writeBytes, ih, Memory.read_write]
    rcases Nat.lt_trichotomy k a with h | h | h
    · rw [if_neg (by omega), if_neg (by omega), if_neg (by omega)]
    · subst h; simp
    · obtain ⟨d, rfl⟩ : ∃ d, k = a + 1 + d := ⟨k - (a + 1), by omega⟩
      have e1 : a + 1 + d - (a + 1) = d := by omega
      have e2 : a + 1 + d - a = d + 1 := by omega
      have e3 : ¬a + 1 + d = a := by omega
      rw [e1, e2, if_neg e3, if_pos (Nat.le_add_right _ _), if_pos (by omega), List.getElem?_cons_succ]

@[simp] theorem Memory.length_readBytes (m : Memory) (a n : Nat) : (Memory.readBytes p m a n).length = n := by
  induction n generalizing a with
  | zero => rfl
  | succ n ih => simp [Memory.readBytes, ih]

/-- The j-th byte of a multi-byte read is the byte at the j-th address (R55). -/
theorem Memory.getElem?_readBytes (m : Memory) (a n j : Nat) :
    (Memory.readBytes p m a n)[j]? = if j < n then some (Memory.read p m (a + j)) else none := by
  induction n generalizing a j with
  | zero => simp [Memory.readBytes]
  | succ n ih =>
    cases j with
    | zero => simp [Memory.readBytes]
    | succ j =>
      have e : a + 1 + j = a + (j + 1) := by omega
      simp [Memory.readBytes, ih, e]

/-! ### The reset contents (R36, R58) -/

@[simp] theorem Font.length_bytes (f : Font) : f.bytes.length = 80 := by simp [Font.bytes]

/-- Nothing but zeros above the font. -/
theorem resetByte_above {a : Nat} (h : 80 ≤ a) : resetByte p a = 0 := by
  rw [resetByte, List.getElem?_eq_none (by simpa using h)]; rfl

/-- Whatever the font, glyph A stands at 50, ten glyphs of five bytes in. -/
theorem resetByte_glyphA {j : Nat} (h : j < 5) : resetByte p (50 + j) = glyphA[j] := by
  have : 50 + j - 50 = j := by omega
  simp [resetByte, Font.bytes, List.getElem?_append, h, this]

/-- Memory that nothing has written reads its reset contents. -/
@[simp] theorem Memory.read_nil (a : Nat) : Memory.read p [] a = resetByte p a := rfl

theorem Memory.readBytes_glyphA : Memory.readBytes p [] 50 5 = [0xF0, 0x90, 0xF0, 0x90, 0x90] := by
  have h : ∀ j, (hj : j < 5) → Memory.read p [] (50 + j) = glyphA[j] := fun j hj => resetByte_glyphA hj
  simp only [Memory.readBytes, Nat.reduceAdd]
  rw [h 0 (by decide), h 1 (by decide), h 2 (by decide), h 3 (by decide), h 4 (by decide)]
  rfl

theorem Memory.readBytes_font : Memory.readBytes p [] 0 80 = p.font.bytes := by
  apply List.ext_getElem?
  intro j
  rw [Memory.getElem?_readBytes, Nat.zero_add, Memory.read_nil, resetByte]
  split
  · next h => rw [List.getElem?_eq_getElem (by simpa using h)]; rfl
  · next h => rw [List.getElem?_eq_none (by simpa using h)]

/-! ### The canonical form is kept -/

theorem Memory.canonicalFrom_mono {m : Memory} {lo hi : Nat} (h : Memory.canonicalFrom p hi m = true) (hl : lo ≤ hi) :
    Memory.canonicalFrom p lo m = true := by
  cases m with
  | nil => rfl
  | cons c m =>
    simp only [Memory.canonicalFrom, Bool.and_eq_true, decide_eq_true_eq] at h ⊢
    exact ⟨⟨⟨by omega, h.1.1.2⟩, h.1.2⟩, h.2⟩

theorem Memory.canonicalFrom_erase {m : Memory} {lo : Nat} (a : Nat) (h : Memory.canonicalFrom p lo m = true) :
    Memory.canonicalFrom p lo (Memory.erase a m) = true := by
  induction m generalizing lo with
  | nil => rfl
  | cons c m ih =>
    obtain ⟨j, b⟩ := c
    simp [Memory.canonicalFrom] at h
    unfold Memory.erase
    split
    · exact ih (Memory.canonicalFrom_mono h.2 (by omega))
    · simp [Memory.canonicalFrom, h, ih h.2]

/-- An erased memory has no entry at the address: what lies from it on lies after it. -/
theorem Memory.canonicalFrom_insert {m : Memory} {lo a : Nat} {b : Byte} (h : Memory.canonicalFrom p lo m = true)
    (hm : Memory.erase a m = m) (hlo : lo ≤ a) (ha : a < p.memSize) (hb : b ≠ resetByte p a) :
    Memory.canonicalFrom p lo (Memory.insert a b m) = true := by
  induction m generalizing lo with
  | nil => simp [Memory.insert, Memory.canonicalFrom, hlo, ha, hb]
  | cons c m ih =>
    obtain ⟨j, d⟩ := c
    have hj : a ≠ j := by
      intro e
      have hr := Memory.read_erase (p := p) ((j, d) :: m) a a
      rw [hm] at hr
      simp [Memory.canonicalFrom] at h
      simp [Memory.read, e] at hr
      exact h.1.2 hr
    simp [Memory.canonicalFrom] at h
    have hm' : Memory.erase a m = m := by simpa [Memory.erase, hj] using hm
    unfold Memory.insert
    split
    · simp [Memory.canonicalFrom, hlo, ha, hb, h]; omega
    · simp [Memory.canonicalFrom, h, ih h.2 hm' (by omega)]

/-- Every one-byte write inside memory keeps the canonical form. -/
theorem Memory.wf_write {m : Memory} {a : Nat} (b : Byte) (h : Memory.wf p m = true) (ha : a < p.memSize) :
    Memory.wf p (Memory.write p m a b) = true := by
  unfold Memory.write Memory.wf
  split
  · exact Memory.canonicalFrom_erase a h
  · next hb => exact Memory.canonicalFrom_insert (Memory.canonicalFrom_erase a h) (Memory.erase_erase m a) (by omega) ha hb

/-- Every multi-byte store inside memory keeps the canonical form. -/
theorem Memory.wf_writeBytes {m : Memory} {a : Nat} (bs : List Byte) (h : Memory.wf p m = true)
    (ha : a + bs.length ≤ p.memSize) : Memory.wf p (Memory.writeBytes p m a bs) = true := by
  induction bs generalizing m a with
  | nil => exact h
  | cons b bs ih =>
    simp only [List.length_cons] at ha
    exact ih (Memory.wf_write b h (by omega)) (by omega)

/-- The memory of the reset state is in canonical form. -/
theorem Memory.wf_reset (p : Params) : Memory.wf p (State.resetWith p).mem = true := rfl

end Sys2Proof.Machine
end

