-- ==== Sys2Proof/Laws/State.lean ====
section
/-! SUPPORT. What every named update of the state leaves alone and what it writes: one lemma per field per update,
and one per accessor. No later proof unfolds a record update. -/

namespace Sys2Proof.Machine

variable (s : State)

/-! ### setV -/

@[simp] theorem State.setV_v (r : Nibble) (b : Byte) : (s.setV r b).v = s.v.set r.toNat b r.isLt := rfl
@[simp] theorem State.setV_i (r : Nibble) (b : Byte) : (s.setV r b).i = s.i := rfl
@[simp] theorem State.setV_pc (r : Nibble) (b : Byte) : (s.setV r b).pc = s.pc := rfl
@[simp] theorem State.setV_sp (r : Nibble) (b : Byte) : (s.setV r b).sp = s.sp := rfl
@[simp] theorem State.setV_stack (r : Nibble) (b : Byte) : (s.setV r b).stack = s.stack := rfl
@[simp] theorem State.setV_dt (r : Nibble) (b : Byte) : (s.setV r b).dt = s.dt := rfl
@[simp] theorem State.setV_st (r : Nibble) (b : Byte) : (s.setV r b).st = s.st := rfl
@[simp] theorem State.setV_key (r : Nibble) (b : Byte) : (s.setV r b).key = s.key := rfl
@[simp] theorem State.setV_fb (r : Nibble) (b : Byte) : (s.setV r b).fb = s.fb := rfl
@[simp] theorem State.setV_dirty (r : Nibble) (b : Byte) : (s.setV r b).dirty = s.dirty := rfl
@[simp] theorem State.setV_mem (r : Nibble) (b : Byte) : (s.setV r b).mem = s.mem := rfl
@[simp] theorem State.setV_fault (r : Nibble) (b : Byte) : (s.setV r b).fault = s.fault := rfl
@[simp] theorem State.setV_draws (r : Nibble) (b : Byte) : (s.setV r b).draws = s.draws := rfl
@[simp] theorem State.setV_params (r : Nibble) (b : Byte) : (s.setV r b).params = s.params := rfl
@[simp] theorem State.setV_readByte (r : Nibble) (b : Byte) (n : Nat) : (s.setV r b).readByte n = s.readByte n := rfl
@[simp] theorem State.setV_pixel (r : Nibble) (b : Byte) (x : Fin 64) (y : Fin 32) : (s.setV r b).pixel x y = s.pixel x y := rfl
@[simp] theorem State.setV_keyDown (r : Nibble) (b : Byte) (j : Fin 16) : (s.setV r b).keyDown j = s.keyDown j := rfl

/-! ### setVThenFlag -/

@[simp] theorem State.setVThenFlag_i (r : Nibble) (b f : Byte) : (s.setVThenFlag r b f).i = s.i := rfl
@[simp] theorem State.setVThenFlag_pc (r : Nibble) (b f : Byte) : (s.setVThenFlag r b f).pc = s.pc := rfl
@[simp] theorem State.setVThenFlag_sp (r : Nibble) (b f : Byte) : (s.setVThenFlag r b f).sp = s.sp := rfl
@[simp] theorem State.setVThenFlag_stack (r : Nibble) (b f : Byte) : (s.setVThenFlag r b f).stack = s.stack := rfl
@[simp] theorem State.setVThenFlag_dt (r : Nibble) (b f : Byte) : (s.setVThenFlag r b f).dt = s.dt := rfl
@[simp] theorem State.setVThenFlag_st (r : Nibble) (b f : Byte) : (s.setVThenFlag r b f).st = s.st := rfl
@[simp] theorem State.setVThenFlag_key (r : Nibble) (b f : Byte) : (s.setVThenFlag r b f).key = s.key := rfl
@[simp] theorem State.setVThenFlag_fb (r : Nibble) (b f : Byte) : (s.setVThenFlag r b f).fb = s.fb := rfl
@[simp] theorem State.setVThenFlag_dirty (r : Nibble) (b f : Byte) : (s.setVThenFlag r b f).dirty = s.dirty := rfl
@[simp] theorem State.setVThenFlag_mem (r : Nibble) (b f : Byte) : (s.setVThenFlag r b f).mem = s.mem := rfl
@[simp] theorem State.setVThenFlag_fault (r : Nibble) (b f : Byte) : (s.setVThenFlag r b f).fault = s.fault := rfl
@[simp] theorem State.setVThenFlag_draws (r : Nibble) (b f : Byte) : (s.setVThenFlag r b f).draws = s.draws := rfl
@[simp] theorem State.setVThenFlag_params (r : Nibble) (b f : Byte) : (s.setVThenFlag r b f).params = s.params := rfl
@[simp] theorem State.setVThenFlag_readByte (r : Nibble) (b f : Byte) (n : Nat) : (s.setVThenFlag r b f).readByte n = s.readByte n := rfl
@[simp] theorem State.setVThenFlag_pixel (r : Nibble) (b f : Byte) (x : Fin 64) (y : Fin 32) : (s.setVThenFlag r b f).pixel x y = s.pixel x y := rfl
@[simp] theorem State.setVThenFlag_keyDown (r : Nibble) (b f : Byte) (j : Fin 16) : (s.setVThenFlag r b f).keyDown j = s.keyDown j := rfl

/-! ### loadV -/

@[simp] theorem State.loadV_i (bs : List Byte) : (s.loadV bs).i = s.i := rfl
@[simp] theorem State.loadV_pc (bs : List Byte) : (s.loadV bs).pc = s.pc := rfl
@[simp] theorem State.loadV_sp (bs : List Byte) : (s.loadV bs).sp = s.sp := rfl
@[simp] theorem State.loadV_stack (bs : List Byte) : (s.loadV bs).stack = s.stack := rfl
@[simp] theorem State.loadV_dt (bs : List Byte) : (s.loadV bs).dt = s.dt := rfl
@[simp] theorem State.loadV_st (bs : List Byte) : (s.loadV bs).st = s.st := rfl
@[simp] theorem State.loadV_key (bs : List Byte) : (s.loadV bs).key = s.key := rfl
@[simp] theorem State.loadV_fb (bs : List Byte) : (s.loadV bs).fb = s.fb := rfl
@[simp] theorem State.loadV_dirty (bs : List Byte) : (s.loadV bs).dirty = s.dirty := rfl
@[simp] theorem State.loadV_mem (bs : List Byte) : (s.loadV bs).mem = s.mem := rfl
@[simp] theorem State.loadV_fault (bs : List Byte) : (s.loadV bs).fault = s.fault := rfl
@[simp] theorem State.loadV_draws (bs : List Byte) : (s.loadV bs).draws = s.draws := rfl
@[simp] theorem State.loadV_params (bs : List Byte) : (s.loadV bs).params = s.params := rfl
@[simp] theorem State.loadV_readByte (bs : List Byte) (n : Nat) : (s.loadV bs).readByte n = s.readByte n := rfl
@[simp] theorem State.loadV_pixel (bs : List Byte) (x : Fin 64) (y : Fin 32) : (s.loadV bs).pixel x y = s.pixel x y := rfl
@[simp] theorem State.loadV_keyDown (bs : List Byte) (j : Fin 16) : (s.loadV bs).keyDown j = s.keyDown j := rfl

/-! ### advance -/

@[simp] theorem State.advance_v : (s.advance).v = s.v := rfl
@[simp] theorem State.advance_i : (s.advance).i = s.i := rfl
@[simp] theorem State.advance_pc : (s.advance).pc = s.pc + 2 := rfl
@[simp] theorem State.advance_sp : (s.advance).sp = s.sp := rfl
@[simp] theorem State.advance_stack : (s.advance).stack = s.stack := rfl
@[simp] theorem State.advance_dt : (s.advance).dt = s.dt := rfl
@[simp] theorem State.advance_st : (s.advance).st = s.st := rfl
@[simp] theorem State.advance_key : (s.advance).key = s.key := rfl
@[simp] theorem State.advance_fb : (s.advance).fb = s.fb := rfl
@[simp] theorem State.advance_dirty : (s.advance).dirty = s.dirty := rfl
@[simp] theorem State.advance_mem : (s.advance).mem = s.mem := rfl
@[simp] theorem State.advance_fault : (s.advance).fault = s.fault := rfl
@[simp] theorem State.advance_draws : (s.advance).draws = s.draws := rfl
@[simp] theorem State.advance_params : (s.advance).params = s.params := rfl
@[simp] theorem State.advance_getV (q : Nibble) : (s.advance).getV q = s.getV q := rfl
@[simp] theorem State.advance_readByte (n : Nat) : (s.advance).readByte n = s.readByte n := rfl
@[simp] theorem State.advance_pixel (x : Fin 64) (y : Fin 32) : (s.advance).pixel x y = s.pixel x y := rfl
@[simp] theorem State.advance_keyDown (j : Fin 16) : (s.advance).keyDown j = s.keyDown j := rfl

/-! ### skipIf -/

@[simp] theorem State.skipIf_v (c : Bool) : (s.skipIf c).v = s.v := rfl
@[simp] theorem State.skipIf_i (c : Bool) : (s.skipIf c).i = s.i := rfl
@[simp] theorem State.skipIf_pc (c : Bool) : (s.skipIf c).pc = s.pc + (if c then 4 else 2) := rfl
@[simp] theorem State.skipIf_sp (c : Bool) : (s.skipIf c).sp = s.sp := rfl
@[simp] theorem State.skipIf_stack (c : Bool) : (s.skipIf c).stack = s.stack := rfl
@[simp] theorem State.skipIf_dt (c : Bool) : (s.skipIf c).dt = s.dt := rfl
@[simp] theorem State.skipIf_st (c : Bool) : (s.skipIf c).st = s.st := rfl
@[simp] theorem State.skipIf_key (c : Bool) : (s.skipIf c).key = s.key := rfl
@[simp] theorem State.skipIf_fb (c : Bool) : (s.skipIf c).fb = s.fb := rfl
@[simp] theorem State.skipIf_dirty (c : Bool) : (s.skipIf c).dirty = s.dirty := rfl
@[simp] theorem State.skipIf_mem (c : Bool) : (s.skipIf c).mem = s.mem := rfl
@[simp] theorem State.skipIf_fault (c : Bool) : (s.skipIf c).fault = s.fault := rfl
@[simp] theorem State.skipIf_draws (c : Bool) : (s.skipIf c).draws = s.draws := rfl
@[simp] theorem State.skipIf_params (c : Bool) : (s.skipIf c).params = s.params := rfl
@[simp] theorem State.skipIf_getV (c : Bool) (q : Nibble) : (s.skipIf c).getV q = s.getV q := rfl
@[simp] theorem State.skipIf_readByte (c : Bool) (n : Nat) : (s.skipIf c).readByte n = s.readByte n := rfl
@[simp] theorem State.skipIf_pixel (c : Bool) (x : Fin 64) (y : Fin 32) : (s.skipIf c).pixel x y = s.pixel x y := rfl
@[simp] theorem State.skipIf_keyDown (c : Bool) (j : Fin 16) : (s.skipIf c).keyDown j = s.keyDown j := rfl

/-! ### push -/

@[simp] theorem State.push_v (a : Word) : (s.push a).v = s.v := rfl
@[simp] theorem State.push_i (a : Word) : (s.push a).i = s.i := rfl
@[simp] theorem State.push_pc (a : Word) : (s.push a).pc = s.pc := rfl
@[simp] theorem State.push_sp (a : Word) : (s.push a).sp = s.sp + 1 := rfl
@[simp] theorem State.push_stack (a : Word) : (s.push a).stack = s.stack.set (s.sp + 1).val a (s.sp + 1).isLt := rfl
@[simp] theorem State.push_dt (a : Word) : (s.push a).dt = s.dt := rfl
@[simp] theorem State.push_st (a : Word) : (s.push a).st = s.st := rfl
@[simp] theorem State.push_key (a : Word) : (s.push a).key = s.key := rfl
@[simp] theorem State.push_fb (a : Word) : (s.push a).fb = s.fb := rfl
@[simp] theorem State.push_dirty (a : Word) : (s.push a).dirty = s.dirty := rfl
@[simp] theorem State.push_mem (a : Word) : (s.push a).mem = s.mem := rfl
@[simp] theorem State.push_fault (a : Word) : (s.push a).fault = s.fault := rfl
@[simp] theorem State.push_draws (a : Word) : (s.push a).draws = s.draws := rfl
@[simp] theorem State.push_params (a : Word) : (s.push a).params = s.params := rfl
@[simp] theorem State.push_getV (a : Word) (q : Nibble) : (s.push a).getV q = s.getV q := rfl
@[simp] theorem State.push_readByte (a : Word) (n : Nat) : (s.push a).readByte n = s.readByte n := rfl
@[simp] theorem State.push_pixel (a : Word) (x : Fin 64) (y : Fin 32) : (s.push a).pixel x y = s.pixel x y := rfl
@[simp] theorem State.push_keyDown (a : Word) (j : Fin 16) : (s.push a).keyDown j = s.keyDown j := rfl

/-! ### pop -/

@[simp] theorem State.pop_v : (s.pop).v = s.v := rfl
@[simp] theorem State.pop_i : (s.pop).i = s.i := rfl
@[simp] theorem State.pop_pc : (s.pop).pc = s.pc := rfl
@[simp] theorem State.pop_sp : (s.pop).sp = s.sp - 1 := rfl
@[simp] theorem State.pop_stack : (s.pop).stack = s.stack := rfl
@[simp] theorem State.pop_dt : (s.pop).dt = s.dt := rfl
@[simp] theorem State.pop_st : (s.pop).st = s.st := rfl
@[simp] theorem State.pop_key : (s.pop).key = s.key := rfl
@[simp] theorem State.pop_fb : (s.pop).fb = s.fb := rfl
@[simp] theorem State.pop_dirty : (s.pop).dirty = s.dirty := rfl
@[simp] theorem State.pop_mem : (s.pop).mem = s.mem := rfl
@[simp] theorem State.pop_fault : (s.pop).fault = s.fault := rfl
@[simp] theorem State.pop_draws : (s.pop).draws = s.draws := rfl
@[simp] theorem State.pop_params : (s.pop).params = s.params := rfl
@[simp] theorem State.pop_getV (q : Nibble) : (s.pop).getV q = s.getV q := rfl
@[simp] theorem State.pop_readByte (n : Nat) : (s.pop).readByte n = s.readByte n := rfl
@[simp] theorem State.pop_pixel (x : Fin 64) (y : Fin 32) : (s.pop).pixel x y = s.pixel x y := rfl
@[simp] theorem State.pop_keyDown (j : Fin 16) : (s.pop).keyDown j = s.keyDown j := rfl

/-! ### setSlot -/

@[simp] theorem State.setSlot_v (k : Fin 16) (p : Bool) : (s.setSlot k p).v = s.v := rfl
@[simp] theorem State.setSlot_i (k : Fin 16) (p : Bool) : (s.setSlot k p).i = s.i := rfl
@[simp] theorem State.setSlot_pc (k : Fin 16) (p : Bool) : (s.setSlot k p).pc = s.pc := rfl
@[simp] theorem State.setSlot_sp (k : Fin 16) (p : Bool) : (s.setSlot k p).sp = s.sp := rfl
@[simp] theorem State.setSlot_stack (k : Fin 16) (p : Bool) : (s.setSlot k p).stack = s.stack := rfl
@[simp] theorem State.setSlot_dt (k : Fin 16) (p : Bool) : (s.setSlot k p).dt = s.dt := rfl
@[simp] theorem State.setSlot_st (k : Fin 16) (p : Bool) : (s.setSlot k p).st = s.st := rfl
@[simp] theorem State.setSlot_key (k : Fin 16) (p : Bool) : (s.setSlot k p).key = s.key.set k.val p k.isLt := rfl
@[simp] theorem State.setSlot_fb (k : Fin 16) (p : Bool) : (s.setSlot k p).fb = s.fb := rfl
@[simp] theorem State.setSlot_dirty (k : Fin 16) (p : Bool) : (s.setSlot k p).dirty = s.dirty := rfl
@[simp] theorem State.setSlot_mem (k : Fin 16) (p : Bool) : (s.setSlot k p).mem = s.mem := rfl
@[simp] theorem State.setSlot_fault (k : Fin 16) (p : Bool) : (s.setSlot k p).fault = s.fault := rfl
@[simp] theorem State.setSlot_draws (k : Fin 16) (p : Bool) : (s.setSlot k p).draws = s.draws := rfl
@[simp] theorem State.setSlot_params (k : Fin 16) (p : Bool) : (s.setSlot k p).params = s.params := rfl
@[simp] theorem State.setSlot_getV (k : Fin 16) (p : Bool) (q : Nibble) : (s.setSlot k p).getV q = s.getV q := rfl
@[simp] theorem State.setSlot_readByte (k : Fin 16) (p : Bool) (n : Nat) : (s.setSlot k p).readByte n = s.readByte n := rfl
@[simp] theorem State.setSlot_pixel (k : Fin 16) (p : Bool) (x : Fin 64) (y : Fin 32) : (s.setSlot k p).pixel x y = s.pixel x y := rfl

/-! ### afterDraw -/

@[simp] theorem State.afterDraw_v : (s.afterDraw).v = s.v := rfl
@[simp] theorem State.afterDraw_i : (s.afterDraw).i = s.i := rfl
@[simp] theorem State.afterDraw_pc : (s.afterDraw).pc = s.pc := rfl
@[simp] theorem State.afterDraw_sp : (s.afterDraw).sp = s.sp := rfl
@[simp] theorem State.afterDraw_stack : (s.afterDraw).stack = s.stack := rfl
@[simp] theorem State.afterDraw_dt : (s.afterDraw).dt = s.dt := rfl
@[simp] theorem State.afterDraw_st : (s.afterDraw).st = s.st := rfl
@[simp] theorem State.afterDraw_key : (s.afterDraw).key = s.key := rfl
@[simp] theorem State.afterDraw_fb : (s.afterDraw).fb = s.fb := rfl
@[simp] theorem State.afterDraw_dirty : (s.afterDraw).dirty = s.dirty := rfl
@[simp] theorem State.afterDraw_mem : (s.afterDraw).mem = s.mem := rfl
@[simp] theorem State.afterDraw_fault : (s.afterDraw).fault = s.fault := rfl
@[simp] theorem State.afterDraw_draws : (s.afterDraw).draws = s.draws + 1 := rfl
@[simp] theorem State.afterDraw_params : (s.afterDraw).params = s.params := rfl
@[simp] theorem State.afterDraw_getV (q : Nibble) : (s.afterDraw).getV q = s.getV q := rfl
@[simp] theorem State.afterDraw_readByte (n : Nat) : (s.afterDraw).readByte n = s.readByte n := rfl
@[simp] theorem State.afterDraw_pixel (x : Fin 64) (y : Fin 32) : (s.afterDraw).pixel x y = s.pixel x y := rfl
@[simp] theorem State.afterDraw_keyDown (j : Fin 16) : (s.afterDraw).keyDown j = s.keyDown j := rfl

/-! ### recordFault -/

@[simp] theorem State.recordFault_v (f : Fault) : (s.recordFault f).v = s.v := rfl
@[simp] theorem State.recordFault_i (f : Fault) : (s.recordFault f).i = s.i := rfl
@[simp] theorem State.recordFault_pc (f : Fault) : (s.recordFault f).pc = s.pc := rfl
@[simp] theorem State.recordFault_sp (f : Fault) : (s.recordFault f).sp = s.sp := rfl
@[simp] theorem State.recordFault_stack (f : Fault) : (s.recordFault f).stack = s.stack := rfl
@[simp] theorem State.recordFault_dt (f : Fault) : (s.recordFault f).dt = s.dt := rfl
@[simp] theorem State.recordFault_st (f : Fault) : (s.recordFault f).st = s.st := rfl
@[simp] theorem State.recordFault_key (f : Fault) : (s.recordFault f).key = s.key := rfl
@[simp] theorem State.recordFault_fb (f : Fault) : (s.recordFault f).fb = s.fb := rfl
@[simp] theorem State.recordFault_dirty (f : Fault) : (s.recordFault f).dirty = s.dirty := rfl
@[simp] theorem State.recordFault_mem (f : Fault) : (s.recordFault f).mem = s.mem := rfl
@[simp] theorem State.recordFault_fault (f : Fault) : (s.recordFault f).fault = some f := rfl
@[simp] theorem State.recordFault_draws (f : Fault) : (s.recordFault f).draws = s.draws := rfl
@[simp] theorem State.recordFault_params (f : Fault) : (s.recordFault f).params = s.params := rfl
@[simp] theorem State.recordFault_getV (f : Fault) (q : Nibble) : (s.recordFault f).getV q = s.getV q := rfl
@[simp] theorem State.recordFault_readByte (f : Fault) (n : Nat) : (s.recordFault f).readByte n = s.readByte n := rfl
@[simp] theorem State.recordFault_pixel (f : Fault) (x : Fin 64) (y : Fin 32) : (s.recordFault f).pixel x y = s.pixel x y := rfl
@[simp] theorem State.recordFault_keyDown (f : Fault) (j : Fin 16) : (s.recordFault f).keyDown j = s.keyDown j := rfl

/-! ### storeBytes -/

@[simp] theorem State.storeBytes_v (a : Nat) (bs : List Byte) : (s.storeBytes a bs).v = s.v := rfl
@[simp] theorem State.storeBytes_i (a : Nat) (bs : List Byte) : (s.storeBytes a bs).i = s.i := rfl
@[simp] theorem State.storeBytes_pc (a : Nat) (bs : List Byte) : (s.storeBytes a bs).pc = s.pc := rfl
@[simp] theorem State.storeBytes_sp (a : Nat) (bs : List Byte) : (s.storeBytes a bs).sp = s.sp := rfl
@[simp] theorem State.storeBytes_stack (a : Nat) (bs : List Byte) : (s.storeBytes a bs).stack = s.stack := rfl
@[simp] theorem State.storeBytes_dt (a : Nat) (bs : List Byte) : (s.storeBytes a bs).dt = s.dt := rfl
@[simp] theorem State.storeBytes_st (a : Nat) (bs : List Byte) : (s.storeBytes a bs).st = s.st := rfl
@[simp] theorem State.storeBytes_key (a : Nat) (bs : List Byte) : (s.storeBytes a bs).key = s.key := rfl
@[simp] theorem State.storeBytes_fb (a : Nat) (bs : List Byte) : (s.storeBytes a bs).fb = s.fb := rfl
@[simp] theorem State.storeBytes_dirty (a : Nat) (bs : List Byte) : (s.storeBytes a bs).dirty = s.dirty := rfl
@[simp] theorem State.storeBytes_fault (a : Nat) (bs : List Byte) : (s.storeBytes a bs).fault = s.fault := rfl
@[simp] theorem State.storeBytes_draws (a : Nat) (bs : List Byte) : (s.storeBytes a bs).draws = s.draws := rfl
@[simp] theorem State.storeBytes_params (a : Nat) (bs : List Byte) : (s.storeBytes a bs).params = s.params := rfl
@[simp] theorem State.storeBytes_mem (a : Nat) (bs : List Byte) :
    (s.storeBytes a bs).mem = Memory.writeBytes s.params s.mem a bs := rfl
@[simp] theorem State.storeBytes_getV (a : Nat) (bs : List Byte) (q : Nibble) : (s.storeBytes a bs).getV q = s.getV q := rfl
@[simp] theorem State.storeBytes_pixel (a : Nat) (bs : List Byte) (x : Fin 64) (y : Fin 32) :
    (s.storeBytes a bs).pixel x y = s.pixel x y := rfl
@[simp] theorem State.storeBytes_keyDown (a : Nat) (bs : List Byte) (j : Fin 16) : (s.storeBytes a bs).keyDown j = s.keyDown j := rfl

/-! ### Registers after a register write -/

theorem State.getV_setV (r q : Nibble) (b : Byte) : (s.setV r b).getV q = if q = r then b else s.getV q := by
  simp only [State.getV, State.setV, Vector.getElem_set, ← BitVec.toNat_inj, eq_comm]

@[simp] theorem State.getV_setV_same (r : Nibble) (b : Byte) : (s.setV r b).getV r = b := by
  simp [State.getV_setV]

theorem State.getV_setV_other {r q : Nibble} (h : q ≠ r) (b : Byte) : (s.setV r b).getV q = s.getV q := by
  simp [State.getV_setV, h]

/-- The flag is what remains in VF, whatever the destination (R246). -/
@[simp] theorem State.getV_setVThenFlag_vf (r : Nibble) (b f : Byte) : (s.setVThenFlag r b f).getV vf = f := by
  simp [State.setVThenFlag]

theorem State.getV_setVThenFlag_other {r q : Nibble} (h : q ≠ vf) (b f : Byte) :
    (s.setVThenFlag r b f).getV q = if q = r then b else s.getV q := by
  simp [State.setVThenFlag, State.getV_setV, h]

theorem State.getV_loadV (bs : List Byte) (q : Nibble) :
    (s.loadV bs).getV q = bs[q.toNat]?.getD (s.getV q) := by
  simp [State.getV, State.loadV]

/-! ### The latch after a slot write -/

theorem State.keyDown_setSlot (k j : Fin 16) (p : Bool) :
    (s.setSlot k p).keyDown j = if j = k then p else s.keyDown j := by
  simp only [State.keyDown, State.setSlot, Fin.getElem_fin, Vector.getElem_set, Fin.ext_iff, eq_comm]

end Sys2Proof.Machine
end

