-- ==== Sys2Proof/Laws/Ops.lean ====
section
/-! SUPPORT. What each shared operation can do, said once: the bounds check, the taking of a fatal error, the
checked effect, the operand forms, the flags, the register ranges, and one toggled pixel. -/

namespace Sys2Proof.Machine

variable {p : Params}

/-! ### The bounds check (R52, R53) -/

theorem outOfBounds_eq_none (base count : Nat) :
    outOfBounds p base count = none ↔ count = 0 ∨ base + count ≤ p.memSize := by
  unfold outOfBounds; split <;> simp <;> omega

theorem outOfBounds_of_fits {base count : Nat} (h : base + count ≤ p.memSize) : outOfBounds p base count = none :=
  (outOfBounds_eq_none (p := p) base count).2 (Or.inr h)

theorem outOfBounds_of_outside {base count : Nat} (h0 : 0 < count) (h : p.memSize < base + count) :
    outOfBounds p base count = some (max base p.memSize) := if_pos ⟨h0, h⟩

theorem outOfBounds_eq_some {base count a : Nat} (h : outOfBounds p base count = some a) :
    0 < count ∧ p.memSize < base + count ∧ a = max base p.memSize := by
  unfold outOfBounds at h; split at h
  · next hc => cases h; exact ⟨hc.1, hc.2, rfl⟩
  · cases h

/-- The recorded address is the lowest failing one (R53): it is touched, it fails, and no lower touched one does. -/
theorem outOfBounds_lowest {base count a : Nat} (h : outOfBounds p base count = some a) :
    base ≤ a ∧ a < base + count ∧ p.memSize ≤ a ∧ ∀ k, base ≤ k → k < a → k < p.memSize := by
  obtain ⟨h0, h1, rfl⟩ := outOfBounds_eq_some h
  exact ⟨by omega, by omega, by omega, fun k _ _ => by omega⟩

/-! ### Loads and stores of the state's memory (R55) -/

/-- A read after a store: the byte of the list that stands there, and every other byte as before. -/
theorem State.readByte_storeBytes (s : State) (a k : Nat) (bs : List Byte) :
    (s.storeBytes a bs).readByte k = if a ≤ k then bs[k - a]?.getD (s.readByte k) else s.readByte k :=
  Memory.read_writeBytes s.mem a k bs

@[simp] theorem State.length_readBytes (s : State) (a n : Nat) : (s.readBytes a n).length = n :=
  Memory.length_readBytes s.mem a n

theorem State.getElem?_readBytes (s : State) (a n j : Nat) :
    (s.readBytes a n)[j]? = if j < n then some (s.readByte (a + j)) else none :=
  Memory.getElem?_readBytes s.mem a n j

/-- A store inside memory keeps the canonical form. -/
theorem State.wf_storeBytes {s : State} {a : Nat} {bs : List Byte} (h : Memory.wf s.params s.mem = true)
    (ha : a + bs.length ≤ s.params.memSize) : Memory.wf s.params (s.storeBytes a bs).mem = true :=
  Memory.wf_writeBytes bs h ha

/-! ### Fatal errors and checked effects (R201, R53) -/

theorem raise_eq_next {f : Fault} {s t : State} : raise f s = .next t ↔ t = s.recordFault f := by
  simp [raise, eq_comm]

/-- A checked effect answers the error with the lowest failing address, or the effect. -/
theorem checked_cases {base count : Nat} {w : Word} {s u t : State} (h : checked base count w s u = .next t) :
    (∃ a, outOfBounds s.params base count = some a ∧ t = s.recordFault (.memoryOutOfBounds s.pc (some w) a)) ∨
      (outOfBounds s.params base count = none ∧ t = u) := by
  unfold checked at h
  split at h
  · next a ha => exact .inl ⟨a, ha, raise_eq_next.1 h⟩
  · next hn => exact .inr ⟨hn, by cases h; rfl⟩

theorem checked_of_fits {base count : Nat} (w : Word) (s u : State) (h : base + count ≤ s.params.memSize) :
    checked base count w s u = .next u := by
  rw [checked, outOfBounds_of_fits h]

theorem checked_of_outside {base count : Nat} (w : Word) (s u : State) (h0 : 0 < count)
    (h : s.params.memSize < base + count) :
    checked base count w s u = .next (s.recordFault (.memoryOutOfBounds s.pc (some w) (max base s.params.memSize))) := by
  rw [checked, outOfBounds_of_outside h0 h]; rfl

/-! ### Operand forms (R73, R142, R143, R180) -/

@[simp] theorem toNat_zextAddr (nnn : Addr12) : (zextAddr nnn).toNat = nnn.toNat := by
  have := nnn.isLt; simp [zextAddr]; omega

@[simp] theorem toNat_zextByte (b : Byte) : (zextByte b).toNat = b.toNat := by
  have := b.isLt; simp [zextByte]; omega

@[simp] theorem toNat_glyphAddr (b : Byte) : (glyphAddr b).toNat = b.toNat * 5 := by
  have := b.isLt; simp [glyphAddr, BitVec.toNat_mul]; omega

theorem keyIndex_eq_none {b : Byte} : keyIndex b = none ↔ 16 ≤ b.toNat := by
  unfold keyIndex; split <;> simp <;> omega

theorem keyIndex_eq_some {b : Byte} {k : Fin 16} : keyIndex b = some k ↔ k.val = b.toNat := by
  unfold keyIndex; split
  · simp [Fin.ext_iff, eq_comm]
  · simp; omega

@[simp] theorem length_decimalDigits (b : Byte) : (decimalDigits b).length = 3 := rfl

/-- A difference modulo 256 as the exact difference wrapped (R132). -/
theorem toNat_byte_sub (a b : Byte) : (a - b).toNat = (a.toNat + 256 - b.toNat) % 256 := by
  have := a.isLt; have := b.isLt
  rw [BitVec.toNat_sub]; omega

/-! ### Flags (R126 to R130) -/

@[simp] theorem toNat_flagByte (c : Bool) : (flagByte c).toNat = c.toNat := by cases c <;> rfl

theorem flagByte_eq_one {c : Bool} : flagByte c = 1 ↔ c = true := by cases c <;> decide

theorem addFlag_iff (a b : Byte) : addFlag a b = true ↔ 255 < a.toNat + b.toNat := by simp [addFlag]

theorem subFlag_iff (a b : Byte) : subFlag a b = true ↔ b.toNat < a.toNat := by simp [subFlag]

theorem toNat_shrFlag (a : Byte) : (shrFlag a).toNat = a.toNat % 2 := by
  rw [shrFlag, BitVec.getLsbD, Nat.testBit_zero]
  rcases Nat.mod_two_eq_zero_or_one a.toNat with h | h <;> simp [h]

/-- What `SHL_FLAG_MASK` fixes of the flag: no bit of the mask, or all of it (R130). -/
theorem shlFlag_of_none {mask a : Byte} (h : a &&& mask = 0) : shlFlag mask a = false := if_pos h

theorem shlFlag_of_all {mask a : Byte} (h : a &&& mask = mask) (h0 : mask ≠ 0) : shlFlag mask a = true := by
  rw [shlFlag, if_neg (h.trans_ne h0), if_pos h]

/-- Under the documented mask the flag is bit 7 (R130). -/
theorem toNat_shlFlag_0x80 (a : Byte) : (shlFlag 0x80 a).toNat = a.toNat / 128 := by
  have key : ∀ b : Byte, (b &&& 0x80 = 0 ∧ b.toNat / 128 = 0) ∨ (b &&& 0x80 = 0x80 ∧ b.toNat / 128 = 1) := by
    decide +kernel
  obtain ⟨h, e⟩ | ⟨h, e⟩ := key a
  · rw [shlFlag_of_none h, e]; rfl
  · rw [shlFlag_of_all h (by decide), e]; rfl

/-! ### Register ranges (R144, R145) -/

@[simp] theorem State.length_dumpV (s : State) (x : Nibble) : (s.dumpV x).length = rangeCount x := by
  have := x.isLt
  simp [State.dumpV, rangeCount]; omega

theorem State.getElem?_dumpV (s : State) (x q : Nibble) (h : q.toNat ≤ x.toNat) :
    (s.dumpV x)[q.toNat]? = some (s.getV q) := by
  have := q.isLt
  simp [State.dumpV, State.getV, List.getElem?_take]
  omega

/-! ### One toggled pixel (R162) -/

theorem Framebuffer.get_flip (fb : Framebuffer) (x px : Fin 64) (y py : Fin 32) :
    Framebuffer.get (Framebuffer.flip fb x y) px py =
      if px = x ∧ py = y then !Framebuffer.get fb x y else Framebuffer.get fb px py := by
  simp only [Framebuffer.get, Framebuffer.flip, Fin.getElem_fin, Vector.getElem_set, Fin.ext_iff]
  by_cases hy : y.val = py.val
  · have hy' : y = py := Fin.ext hy
    subst hy'
    by_cases hx : x.val = px.val <;> simp [hx, eq_comm]
  · simp [hy, eq_comm]

@[simp] theorem Framebuffer.get_dark (x : Fin 64) (y : Fin 32) : Framebuffer.get Framebuffer.dark x y = false := by
  simp [Framebuffer.get, Framebuffer.dark]

end Sys2Proof.Machine
end

