-- ==== Sys2Proof/Laws/Draw.lean ====
section
/-! SUPPORT. What a draw's loops do, said once (44_display.md R162): which pixels a sprite row, and then the rows of a
sprite, toggle, and when they collide. -/

namespace Sys2Proof.Machine

/-! ### No two columns or rows of one sprite share a pixel (R162) -/

theorem wrapColumn_inj {x0 : Byte} {a b : Nat} (ha : a < 8) (hb : b < 8) (h : wrapColumn x0 a = wrapColumn x0 b) : a = b := by
  have := congrArg Fin.val h
  simp [wrapColumn, Fin.ofNat] at this; omega

theorem wrapRow_inj {x0 : Byte} {a b : Nat} (ha : a < 16) (hb : b < 16) (h : wrapRow x0 a = wrapRow x0 b) : a = b := by
  have := congrArg Fin.val h
  simp [wrapRow, Fin.ofNat] at this; omega

/-! ### The loops -/

/-- One sprite row toggles exactly the pixels its set bits land on, and collides exactly when one of them was lit. -/
theorem blitRow_spec (row x0 : Byte) (py : Fin 32) (cs : List Nat) (d : Blit) (hn : cs.Nodup) (h8 : ∀ c ∈ cs, c < 8) :
    (∀ px qy, Framebuffer.get (blitRow row x0 py cs d).fb px qy ≠ Framebuffer.get d.fb px qy ↔
      qy = py ∧ ∃ c ∈ cs, spriteBit row c = true ∧ px = wrapColumn x0 c) ∧
    ((blitRow row x0 py cs d).collision = true ↔
      d.collision = true ∨ ∃ c ∈ cs, spriteBit row c = true ∧ Framebuffer.get d.fb (wrapColumn x0 c) py = true) := by
  induction cs generalizing d with
  | nil => simp [blitRow]
  | cons c cs ih =>
    obtain ⟨hc, hn⟩ := List.nodup_cons.1 hn
    have h8' : ∀ c ∈ cs, c < 8 := fun k hk => h8 k (List.mem_cons_of_mem _ hk)
    rw [blitRow]
    cases hb : spriteBit row c
    · obtain ⟨h1, h2⟩ := ih d hn h8'
      simp [h1, h2, hb]
    · obtain ⟨h1, h2⟩ := ih (d.toggle (wrapColumn x0 c) py) hn h8'
      have hne : ∀ k ∈ cs, wrapColumn x0 k ≠ wrapColumn x0 c := fun k hk e =>
        hc (wrapColumn_inj (h8' k hk) (h8 c (by simp)) e ▸ hk)
      refine ⟨fun px qy => ?_, ?_⟩
      · have h1 := h1 px qy
        simp only [if_true]
        generalize Framebuffer.get (blitRow row x0 py cs (d.toggle (wrapColumn x0 c) py)).fb px qy = g at *
        simp only [Blit.toggle, Framebuffer.get_flip] at h1
        simp only [List.mem_cons, exists_eq_or_imp, hb, true_and]
        by_cases hq : qy = py
        · by_cases hp : px = wrapColumn x0 c
          · have : ¬ ∃ k ∈ cs, spriteBit row k = true ∧ px = wrapColumn x0 k := by
              rintro ⟨k, hk, _, e⟩; exact hne k hk (e ▸ hp)
            subst hq; subst hp
            simp [this] at h1
            simp [h1]
          · subst hq; simpa [hp] using h1
        · simpa [hq] using h1
      · rw [if_pos rfl, h2]
        simp only [Blit.toggle, Framebuffer.get_flip, List.mem_cons, exists_eq_or_imp, hb, true_and, Bool.or_eq_true, or_assoc]
        refine or_congr Iff.rfl (or_congr Iff.rfl (exists_congr fun k => and_congr_right fun hk => and_congr_right fun _ => ?_))
        rw [if_neg (fun e => hne k hk e.1)]

/-- The sprite rows from row r on toggle exactly the pixels their set bits land on (no pixel twice: at most 16 rows of 8
columns), and collide exactly when one of them was lit before the draw. -/
theorem blitRows_spec (x0 y0 : Byte) (rows : List Byte) (r : Nat) (d : Blit) (h16 : r + rows.length ≤ 16) :
    (∀ px qy, Framebuffer.get (blitRows x0 y0 r rows d).fb px qy ≠ Framebuffer.get d.fb px qy ↔
      ∃ j row, rows[j]? = some row ∧ qy = wrapRow y0 (r + j) ∧ ∃ c < 8, spriteBit row c = true ∧ px = wrapColumn x0 c) ∧
    ((blitRows x0 y0 r rows d).collision = true ↔ d.collision = true ∨
      ∃ j row, rows[j]? = some row ∧ ∃ c < 8, spriteBit row c = true ∧ Framebuffer.get d.fb (wrapColumn x0 c) (wrapRow y0 (r + j)) = true) := by
  induction rows generalizing r d with
  | nil => simp [blitRows]
  | cons row rows ih =>
    simp only [List.length_cons] at h16
    rw [blitRows]
    obtain ⟨g1, g2⟩ := blitRow_spec row x0 (wrapRow y0 r) (List.range 8) d List.nodup_range (by simp)
    obtain ⟨h1, h2⟩ := ih (r + 1) (blitRow row x0 (wrapRow y0 r) (List.range 8) d) (by omega)
    simp only [List.mem_range] at g1 g2
    have hne : ∀ j row', rows[j]? = some row' → wrapRow y0 (r + 1 + j) ≠ wrapRow y0 r := fun j row' hj e => by
      have := (List.getElem?_eq_some_iff.1 hj).1
      have := wrapRow_inj (by omega) (by omega) e; omega
    have split : ∀ P : Nat → Byte → Prop, (∃ j row', (row :: rows)[j]? = some row' ∧ P j row') ↔ P 0 row ∨ ∃ j row', rows[j]? = some row' ∧ P (j+1) row' := by
      intro P; constructor
      · rintro ⟨j, row', hj, h⟩
        cases j with
        | zero => simp at hj; subst hj; exact .inl h
        | succ j => exact .inr ⟨j, row', by simpa using hj, h⟩
      · rintro (h | ⟨j, row', hj, h⟩)
        · exact ⟨0, row, by simp, h⟩
        · exact ⟨j+1, row', by simpa using hj, h⟩
    have a1 : ∀ j, r + 1 + j = r + (j + 1) := fun j => by omega
    simp only [a1] at h1 h2 hne
    refine ⟨fun px qy => ?_, ?_⟩
    · rw [split fun j row' => qy = wrapRow y0 (r + j) ∧ ∃ c < 8, spriteBit row' c = true ∧ px = wrapColumn x0 c]
      have h1 := h1 px qy
      have g1 := g1 px qy
      simp only [Nat.add_zero]
      generalize Framebuffer.get (blitRows x0 y0 (r + 1) rows _).fb px qy = a at *
      generalize Framebuffer.get (blitRow row x0 _ _ d).fb px qy = b at *
      generalize Framebuffer.get d.fb px qy = c at *
      rw [← g1, ← h1]
      have : ¬ (b ≠ c ∧ a ≠ b) := by
        rintro ⟨hb, ha⟩
        obtain ⟨e, _⟩ := g1.1 hb
        obtain ⟨j, row', hj, e', _⟩ := h1.1 ha
        exact hne j row' hj (e'.symm.trans e)
      revert this; cases a <;> cases b <;> cases c <;> simp
    · rw [split fun j row' => ∃ c < 8, spriteBit row' c = true ∧ Framebuffer.get d.fb (wrapColumn x0 c) (wrapRow y0 (r + j)) = true, h2, g2]
      simp only [Nat.add_zero, or_assoc]
      refine or_congr Iff.rfl (or_congr Iff.rfl (exists_congr fun j => exists_congr fun row' => and_congr_right fun hj => exists_congr fun k => and_congr_right fun hk => and_congr_right fun _ => ?_))
      have : ¬ (Framebuffer.get (blitRow row x0 (wrapRow y0 r) (List.range 8) d).fb (wrapColumn x0 k) (wrapRow y0 (r + (j + 1))) ≠ Framebuffer.get d.fb (wrapColumn x0 k) (wrapRow y0 (r + (j + 1)))) := by
        rw [g1]; rintro ⟨e, _⟩; exact hne j row' hj e
      rw [not_not.1 this]

/-! ### Coordinates and bits as numbers (R162, R164) -/

theorem eq_wrapColumn_iff {x0 : Byte} {c : Nat} {px : Fin 64} :
    px = wrapColumn x0 c ↔ px.val = (x0.toNat + c) % 64 := by
  simp [wrapColumn, Fin.ofNat, Fin.ext_iff]

theorem eq_wrapRow_iff {x0 : Byte} {c : Nat} {px : Fin 32} :
    px = wrapRow x0 c ↔ px.val = (x0.toNat + c) % 32 := by
  simp [wrapRow, Fin.ofNat, Fin.ext_iff]

theorem spriteBit_iff (b : Byte) (c : Nat) : spriteBit b c = true ↔ b.toNat / 2 ^ (7 - c) % 2 = 1 := by
  simp [spriteBit, BitVec.getLsbD, Nat.testBit_eq_decide_div_mod_eq]

end Sys2Proof.Machine
end

