-- ==== Sys2Proof/Laws/Frame.lean ====
section
/-! SUPPORT. The laws of frames: reading one out part by part, enlarging it, and chaining two transitions. -/

namespace Sys2Proof.Machine

/-! ### What it is for a part to be the same -/

variable (s t : State)

@[simp] theorem Part.same_regs : Part.regs.same s t ↔ ∀ r, t.getV r = s.getV r := Iff.rfl
@[simp] theorem Part.same_i : Part.i.same s t ↔ t.i = s.i := Iff.rfl
@[simp] theorem Part.same_pc : Part.pc.same s t ↔ t.pc = s.pc := Iff.rfl
@[simp] theorem Part.same_sp : Part.sp.same s t ↔ t.sp = s.sp := Iff.rfl
@[simp] theorem Part.same_stack : Part.stack.same s t ↔ ∀ j : Fin 16, t.stack[j] = s.stack[j] := Iff.rfl
@[simp] theorem Part.same_dt : Part.dt.same s t ↔ t.dt = s.dt := Iff.rfl
@[simp] theorem Part.same_st : Part.st.same s t ↔ t.st = s.st := Iff.rfl
@[simp] theorem Part.same_keys : Part.keys.same s t ↔ ∀ k, t.keyDown k = s.keyDown k := Iff.rfl
@[simp] theorem Part.same_pixels : Part.pixels.same s t ↔ ∀ x y, t.pixel x y = s.pixel x y := Iff.rfl
@[simp] theorem Part.same_dirty : Part.dirty.same s t ↔ t.dirty = s.dirty := Iff.rfl
@[simp] theorem Part.same_mem : Part.mem.same s t ↔ ∀ a, t.readByte a = s.readByte a := Iff.rfl
@[simp] theorem Part.same_fault : Part.fault.same s t ↔ t.fault = s.fault := Iff.rfl
@[simp] theorem Part.same_params : Part.params.same s t ↔ t.params = s.params := Iff.rfl

/-! ### Reflexive, enlarged, chained -/

/-- Each part the same in one state. -/
theorem Part.same_refl (p : Part) : p.same s s := by
  cases p <;> simp

variable {s t} {u : State}

theorem Part.same_trans {p : Part} (h : p.same s t) (g : p.same t u) : p.same s u := by
  cases p
  case regs => exact fun r => (g r).trans (h r)
  case stack => exact fun j => (g j).trans (h j)
  case keys => exact fun k => (g k).trans (h k)
  case pixels => exact fun x y => (g x y).trans (h x y)
  case mem => exact fun a => (g a).trans (h a)
  all_goals exact Eq.trans g h

theorem UnchangedBut.mono {ps qs : List Part} (h : UnchangedBut ps s t) (hq : ∀ p ∈ ps, p ∈ qs) :
    UnchangedBut qs s t := fun p hp => h p fun hm => hp (hq p hm)

/-- Two transitions in a row leave unchanged what both leave unchanged. -/
theorem UnchangedBut.trans {ps qs : List Part} (h : UnchangedBut ps s t) (g : UnchangedBut qs t u) :
    UnchangedBut (ps ++ qs) s u := fun p hp =>
  Part.same_trans (h p fun hm => hp (List.mem_append_left _ hm)) (g p fun hm => hp (List.mem_append_right _ hm))

end Sys2Proof.Machine
end

