-- ==== Sys2Proof/Laws/PerInstr.lean ====
section
/-! SUPPORT. Statements made per instruction. The family TableRow: the word of every instruction carries the fixed bits
of its row of spec/opcode_table.json. -/

namespace Sys2Proof.Laws

/-! ### An assembled word under the three masks of the opcode table -/

theorem nibble_and_ones (x : Nibble) : x &&& 0xF = x := BitVec.and_allOnes

theorem byte_and_ones (x : Byte) : x &&& 0xFF = x := BitVec.and_allOnes

theorem formXKK_and_F0FF (c x : Nibble) (kk : Byte) : formXKK c x kk &&& 0xF0FF = formXKK c 0 kk := by
  rw [← formXKK_fields (formXKK c x kk &&& 0xF0FF), opClass_and, fieldX_and, fieldKk_and, opClass_formXKK,
    fieldKk_formXKK, show opClass 0xF0FF = 0xF from rfl, show fieldX 0xF0FF = 0 from rfl,
    show fieldKk 0xF0FF = 0xFF from rfl, nibble_and_ones, byte_and_ones]
  simp

theorem formXKK_and_F000 (c x : Nibble) (kk : Byte) : formXKK c x kk &&& 0xF000 = formXKK c 0 0 := by
  rw [← formXKK_fields (formXKK c x kk &&& 0xF000), opClass_and, fieldX_and, fieldKk_and, opClass_formXKK,
    show opClass 0xF000 = 0xF from rfl, show fieldX 0xF000 = 0 from rfl, show fieldKk 0xF000 = 0 from rfl,
    nibble_and_ones]
  simp

theorem formNNN_and_F000 (c : Nibble) (nnn : Addr12) : formNNN c nnn &&& 0xF000 = formNNN c 0 := by
  rw [← formNNN_fields (formNNN c nnn &&& 0xF000), opClass_and, fieldNnn_and, opClass_formNNN,
    show opClass 0xF000 = 0xF from rfl, show fieldNnn 0xF000 = 0 from rfl, nibble_and_ones]
  simp

theorem formXYN_and_F000 (c x y n : Nibble) : formXYN c x y n &&& 0xF000 = formXYN c 0 0 0 := by
  rw [← formXYN_fields (formXYN c x y n &&& 0xF000), opClass_and, fieldX_and, fieldY_and, fieldN_and, opClass_formXYN,
    show opClass 0xF000 = 0xF from rfl, show fieldX 0xF000 = 0 from rfl, show fieldY 0xF000 = 0 from rfl,
    show fieldN 0xF000 = 0 from rfl, nibble_and_ones]
  simp

theorem formXYN_and_F00F (c x y n : Nibble) : formXYN c x y n &&& 0xF00F = formXYN c 0 0 n := by
  rw [← formXYN_fields (formXYN c x y n &&& 0xF00F), opClass_and, fieldX_and, fieldY_and, fieldN_and, opClass_formXYN,
    fieldN_formXYN, show opClass 0xF00F = 0xF from rfl, show fieldX 0xF00F = 0 from rfl,
    show fieldY 0xF00F = 0 from rfl, show fieldN 0xF00F = 0xF from rfl, nibble_and_ones, nibble_and_ones]
  simp

/-! ### The family -/

/-- A row of spec/opcode_table.json: its mask and its match. -/
structure Row where
  mask : Word
  pattern : Word
  deriving DecidableEq, Repr

/-- The row of an instruction, transcribed from the table. -/
def rowOf : Instr → Row
  | .cls _ => ⟨0xF0FF, 0x00E0⟩
  | .ret _ => ⟨0xF0FF, 0x00EE⟩
  | .jp _ => ⟨0xF000, 0x1000⟩
  | .call _ => ⟨0xF000, 0x2000⟩
  | .seImm _ _ => ⟨0xF000, 0x3000⟩
  | .sneImm _ _ => ⟨0xF000, 0x4000⟩
  | .seReg _ _ _ => ⟨0xF000, 0x5000⟩
  | .ldImm _ _ => ⟨0xF000, 0x6000⟩
  | .addImm _ _ => ⟨0xF000, 0x7000⟩
  | .ldReg _ _ => ⟨0xF00F, 0x8000⟩
  | .or _ _ => ⟨0xF00F, 0x8001⟩
  | .and _ _ => ⟨0xF00F, 0x8002⟩
  | .xor _ _ => ⟨0xF00F, 0x8003⟩
  | .addReg _ _ => ⟨0xF00F, 0x8004⟩
  | .sub _ _ => ⟨0xF00F, 0x8005⟩
  | .shr _ _ => ⟨0xF00F, 0x8006⟩
  | .subn _ _ => ⟨0xF00F, 0x8007⟩
  | .shl _ _ => ⟨0xF00F, 0x800E⟩
  | .sneReg _ _ _ => ⟨0xF000, 0x9000⟩
  | .ldI _ => ⟨0xF000, 0xA000⟩
  | .rnd _ _ => ⟨0xF000, 0xC000⟩
  | .drw _ _ _ => ⟨0xF000, 0xD000⟩
  | .skp _ => ⟨0xF0FF, 0xE09E⟩
  | .sknp _ => ⟨0xF0FF, 0xE0A1⟩
  | .ldVDt _ => ⟨0xF0FF, 0xF007⟩
  | .ldDtV _ => ⟨0xF0FF, 0xF015⟩
  | .ldStV _ => ⟨0xF0FF, 0xF018⟩
  | .addI _ => ⟨0xF0FF, 0xF01E⟩
  | .ldF _ => ⟨0xF0FF, 0xF029⟩
  | .ldB _ => ⟨0xF0FF, 0xF033⟩
  | .ldMemV _ => ⟨0xF0FF, 0xF055⟩
  | .ldVMem _ => ⟨0xF0FF, 0xF065⟩

/-- One instruction of each row, in the table's order. -/
def oneOfEach : List Instr :=
  [.cls 0, .ret 0, .jp 0, .call 0, .seImm 0 0, .sneImm 0 0, .seReg 0 0 0, .ldImm 0 0] ++
  [.addImm 0 0, .ldReg 0 0, .or 0 0, .and 0 0, .xor 0 0, .addReg 0 0, .sub 0 0, .shr 0 0] ++
  [.subn 0 0, .shl 0 0, .sneReg 0 0 0, .ldI 0, .rnd 0 0, .drw 0 0 0, .skp 0, .sknp 0] ++
  [.ldVDt 0, .ldDtV 0, .ldStV 0, .addI 0, .ldF 0, .ldB 0, .ldMemV 0, .ldVMem 0]

/-- The instruction's word has the fixed bits of its row. -/
def TableRow.Statement (i : Instr) : Prop := encode i &&& (rowOf i).mask = (rowOf i).pattern

theorem TableRow.cls (z : Nibble) : TableRow.Statement (.cls z) := formXKK_and_F0FF _ _ _
theorem TableRow.ret (z : Nibble) : TableRow.Statement (.ret z) := formXKK_and_F0FF _ _ _
theorem TableRow.jp (nnn : Addr12) : TableRow.Statement (.jp nnn) := formNNN_and_F000 _ _
theorem TableRow.call (nnn : Addr12) : TableRow.Statement (.call nnn) := formNNN_and_F000 _ _
theorem TableRow.seImm (x : Nibble) (kk : Byte) : TableRow.Statement (.seImm x kk) := formXKK_and_F000 _ _ _
theorem TableRow.sneImm (x : Nibble) (kk : Byte) : TableRow.Statement (.sneImm x kk) := formXKK_and_F000 _ _ _
theorem TableRow.seReg (x : Nibble) (y : Nibble) (z : Nibble) : TableRow.Statement (.seReg x y z) := formXYN_and_F000 _ _ _ _
theorem TableRow.ldImm (x : Nibble) (kk : Byte) : TableRow.Statement (.ldImm x kk) := formXKK_and_F000 _ _ _
theorem TableRow.addImm (x : Nibble) (kk : Byte) : TableRow.Statement (.addImm x kk) := formXKK_and_F000 _ _ _
theorem TableRow.ldReg (x : Nibble) (y : Nibble) : TableRow.Statement (.ldReg x y) := formXYN_and_F00F _ _ _ _
theorem TableRow.or (x : Nibble) (y : Nibble) : TableRow.Statement (.or x y) := formXYN_and_F00F _ _ _ _
theorem TableRow.and (x : Nibble) (y : Nibble) : TableRow.Statement (.and x y) := formXYN_and_F00F _ _ _ _
theorem TableRow.xor (x : Nibble) (y : Nibble) : TableRow.Statement (.xor x y) := formXYN_and_F00F _ _ _ _
theorem TableRow.addReg (x : Nibble) (y : Nibble) : TableRow.Statement (.addReg x y) := formXYN_and_F00F _ _ _ _
theorem TableRow.sub (x : Nibble) (y : Nibble) : TableRow.Statement (.sub x y) := formXYN_and_F00F _ _ _ _
theorem TableRow.shr (x : Nibble) (y : Nibble) : TableRow.Statement (.shr x y) := formXYN_and_F00F _ _ _ _
theorem TableRow.subn (x : Nibble) (y : Nibble) : TableRow.Statement (.subn x y) := formXYN_and_F00F _ _ _ _
theorem TableRow.shl (x : Nibble) (y : Nibble) : TableRow.Statement (.shl x y) := formXYN_and_F00F _ _ _ _
theorem TableRow.sneReg (x : Nibble) (y : Nibble) (z : Nibble) : TableRow.Statement (.sneReg x y z) := formXYN_and_F000 _ _ _ _
theorem TableRow.ldI (nnn : Addr12) : TableRow.Statement (.ldI nnn) := formNNN_and_F000 _ _
theorem TableRow.rnd (x : Nibble) (kk : Byte) : TableRow.Statement (.rnd x kk) := formXKK_and_F000 _ _ _
theorem TableRow.drw (x : Nibble) (y : Nibble) (n : Nibble) : TableRow.Statement (.drw x y n) := formXYN_and_F000 _ _ _ _
theorem TableRow.skp (x : Nibble) : TableRow.Statement (.skp x) := formXKK_and_F0FF _ _ _
theorem TableRow.sknp (x : Nibble) : TableRow.Statement (.sknp x) := formXKK_and_F0FF _ _ _
theorem TableRow.ldVDt (x : Nibble) : TableRow.Statement (.ldVDt x) := formXKK_and_F0FF _ _ _
theorem TableRow.ldDtV (x : Nibble) : TableRow.Statement (.ldDtV x) := formXKK_and_F0FF _ _ _
theorem TableRow.ldStV (x : Nibble) : TableRow.Statement (.ldStV x) := formXKK_and_F0FF _ _ _
theorem TableRow.addI (x : Nibble) : TableRow.Statement (.addI x) := formXKK_and_F0FF _ _ _
theorem TableRow.ldF (x : Nibble) : TableRow.Statement (.ldF x) := formXKK_and_F0FF _ _ _
theorem TableRow.ldB (x : Nibble) : TableRow.Statement (.ldB x) := formXKK_and_F0FF _ _ _
theorem TableRow.ldMemV (x : Nibble) : TableRow.Statement (.ldMemV x) := formXKK_and_F0FF _ _ _
theorem TableRow.ldVMem (x : Nibble) : TableRow.Statement (.ldVMem x) := formXKK_and_F0FF _ _ _

end Sys2Proof.Laws
end

