-- ==== Sys2Proof/Laws/Step.lean ====
section
/-! SUPPORT. What a step and a meaning can do, said once: the cases of a step, the cases of a fetch, and that every
meaning answers a next state. -/

namespace Sys2Proof.Machine

/-! ### Fetch (R83, R84) -/

theorem fetchFault_eq_none (s : State) : s.fetchFault = none ↔ s.pc.toNat + 1 < s.params.memSize := by
  rw [State.fetchFault, outOfBounds_eq_none]; omega

theorem fetchFault_of_outside {s : State} (h : s.params.memSize ≤ s.pc.toNat + 1) :
    s.fetchFault = some (max s.pc.toNat s.params.memSize) := outOfBounds_of_outside (by omega) (by omega)

/-! ### A step -/

theorem step_of_faulted {s : State} {f : Fault} (h : s.fault = some f) : step s = .fault f := by
  rw [step, h]

theorem step_of_fetchFault {s : State} {a : Nat} (h : s.fault = none) (ha : s.fetchFault = some a) :
    step s = .next (s.recordFault (.memoryOutOfBounds s.pc none a)) := by
  rw [step, h]; simp only [ha]; rfl

theorem step_of_reject {s : State} {e : DecodeReject} (h : s.fault = none) (hf : s.fetchFault = none)
    (hd : decode s.fetchWord = .error e) : step s = .next (s.recordFault (.decodeError s.pc s.fetchWord)) := by
  rw [step, h]; simp only [hf, hd]; rfl

/-- The step of a word that decodes is its instruction's meaning, and nothing around it (R83, R85). -/
theorem step_of_decode {s : State} {i : Instr} (h : s.fault = none) (hf : s.fetchFault = none)
    (hd : decode s.fetchWord = .ok i) : step s = exec i s := by
  rw [step, h]; simp only [hf, hd]

/-- Everything a step that answers a next state can have done (R208). -/
theorem step_cases {s t : State} (h : step s = .next t) :
    s.fault = none ∧
      ((∃ a, s.fetchFault = some a ∧ t = s.recordFault (.memoryOutOfBounds s.pc none a)) ∨
       (s.fetchFault = none ∧ (∃ e, decode s.fetchWord = .error e) ∧
         t = s.recordFault (.decodeError s.pc s.fetchWord)) ∨
       (s.fetchFault = none ∧ ∃ i, decode s.fetchWord = .ok i ∧ exec i s = .next t)) := by
  cases hf : s.fault with
  | some f => rw [step_of_faulted hf] at h; cases h
  | none =>
    refine ⟨rfl, ?_⟩
    cases ha : s.fetchFault with
    | some a => rw [step_of_fetchFault hf ha] at h; cases h; exact .inl ⟨a, rfl, rfl⟩
    | none =>
      cases hd : decode s.fetchWord with
      | error e => rw [step_of_reject hf ha hd] at h; cases h; exact .inr (.inl ⟨rfl, ⟨e, rfl⟩, rfl⟩)
      | ok i => rw [step_of_decode hf ha hd] at h; exact .inr (.inr ⟨rfl, i, rfl, h⟩)

/-! ### Host actions (R214, R240) -/

/-- A timer counted down is one less, and 0 stays 0 (R214). -/
@[simp] theorem toNat_countDown (t : Byte) : (countDown t).toNat = t.toNat - 1 := by
  unfold countDown; split
  · simp [*]
  · next h =>
    have h0 : t.toNat ≠ 0 := fun e => h (BitVec.eq_of_toNat_eq e)
    have := t.isLt
    rw [BitVec.toNat_sub]; simp; omega

theorem initCore_of_fits {s : State} {image : List Byte} (h : s.params.programBase.toNat + image.length ≤ s.params.memSize) :
    s.initCore (some image) = s.loaded image := by simp [State.initCore, h]

theorem initCore_of_too_long {s : State} {image : List Byte}
    (h : s.params.memSize < s.params.programBase.toNat + image.length) :
    s.initCore (some image) = s.recordFault (.programLoadFailure (some image.length)) := by
  simp [State.initCore, Nat.not_le.2 h]

/-- The reset state is a core initialised with an empty image (R241). -/
theorem reset_eq_loaded_nil (p : Params) : (State.resetWith p).loaded [] = State.resetWith p := rfl

/-! ### The meanings with two ends, taken apart -/

theorem execRet_cases {z : Nibble} {s t : State} (h : execRet z s = .next t) :
    (s.sp = 0 ∧ t = s.recordFault (.stackUnderflow s.pc (encode (.ret z)))) ∨ (s.sp ≠ 0 ∧ t = { s.pop with pc := s.top }) := by
  unfold execRet at h; split at h
  · next hs => exact .inl ⟨hs, raise_eq_next.1 h⟩
  · next hs => exact .inr ⟨hs, by cases h; rfl⟩

theorem execCall_cases {nnn : Addr12} {s t : State} (h : execCall nnn s = .next t) :
    (s.sp = 15 ∧ t = s.recordFault (.stackOverflow s.pc (encode (.call nnn)))) ∨
      (s.sp ≠ 15 ∧ t = { s.push (s.pc + 2) with pc := zextAddr nnn }) := by
  unfold execCall at h; split at h
  · next hs => exact .inl ⟨hs, raise_eq_next.1 h⟩
  · next hs => exact .inr ⟨hs, by cases h; rfl⟩

theorem execSkp_cases {x : Nibble} {s t : State} (h : execSkp x s = .next t) :
    (keyIndex (s.getV x) = none ∧ t = s.recordFault (.keyIndexOutOfRange s.pc (encode (.skp x)) (s.getV x))) ∨
      ∃ k, keyIndex (s.getV x) = some k ∧
        ((s.keyDown k = true ∧ t = (s.setSlot k false).skipIf true) ∨ (s.keyDown k = false ∧ t = s.skipIf false)) := by
  unfold execSkp at h; split at h
  · next hk => exact .inl ⟨hk, raise_eq_next.1 h⟩
  · next k hk =>
    refine .inr ⟨k, hk, ?_⟩
    cases hd : s.keyDown k <;> simp only [hd] at h <;> cases h <;> simp

theorem execSknp_cases {x : Nibble} {s t : State} (h : execSknp x s = .next t) :
    (keyIndex (s.getV x) = none ∧ t = s.recordFault (.keyIndexOutOfRange s.pc (encode (.sknp x)) (s.getV x))) ∨
      ∃ k, keyIndex (s.getV x) = some k ∧
        ((s.keyDown k = true ∧ t = (if s.params.exa1Consumes then s.setSlot k false else s).skipIf false) ∨
          (s.keyDown k = false ∧ t = s.skipIf true)) := by
  unfold execSknp at h; split at h
  · next hk => exact .inl ⟨hk, raise_eq_next.1 h⟩
  · next k hk =>
    refine .inr ⟨k, hk, ?_⟩
    cases hd : s.keyDown k <;> simp only [hd] at h <;> cases h <;> simp

end Sys2Proof.Machine
end

