-- ==== Sys2Proof/WellFormed.lean ====
section
/-! DEFINITION. The one check an instruction term can fail. Every field of `Instr` has exactly its width of
R71, so every term is an instruction the core runs (R79, R80); the check is the assembler's. -/

namespace Sys2Proof

/-- The instruction is written as the assembler writes it: "The assembler emits the don't-care bits of
rule R79 as zero" (R81). A word whose don't-care bits are not zero is still that instruction and still
runs (R79), so decoding and execution never ask for this. -/
def Instr.wellFormed : Instr → Bool
  | .cls z => z == 0
  | .ret z => z == 0
  | .seReg _ _ z => z == 0
  | .sneReg _ _ z => z == 0
  | .jp _ | .call _ | .seImm _ _ | .sneImm _ _ | .ldImm _ _ | .addImm _ _ | .ldReg _ _ | .or _ _ | .and _ _
  | .xor _ _ | .addReg _ _ | .sub _ _ | .shr _ _ | .subn _ _ | .shl _ _ | .ldI _ | .rnd _ _ | .drw _ _ _
  | .skp _ | .sknp _ | .ldVDt _ | .ldDtV _ | .ldStV _ | .addI _ | .ldF _ | .ldB _ | .ldMemV _ | .ldVMem _ => true

end Sys2Proof
end

