-- ==== Sys2Proof/Tests/Slice0.lean ====
section
/-! SUPPORT. The model's own tests. Every expected value is from the spec: the vectors of 95_test_vectors.md (their ids
stand in the docstrings) or the pattern of a rule of 30_encoding.md written out bit by bit. The theorems named
witness_<Statement> show concrete inputs that meet that statement's hypotheses, clause by clause. -/

namespace Sys2Proof.Tests

open Sys2Proof Sys2Proof.Machine Sys2Proof.Laws

/-! ### Helpers -/

/-- What a view of the next state shows, if there is a next state. -/
def after {α : Type} (o : Host.Outcome State Fault Refusal) (view : State → α) : Option α :=
  match o with
  | .next t => some (view t)
  | .fault _ => none
  | .refused _ => none

/-- The reset state with some registers set. -/
def regs (l : List (Nibble × Byte)) : State := l.foldl (fun s p => s.setV p.1 p.2) State.reset

/-- The state under other parameters. -/
def under (p : Params) (s : State) : State := { s with params := p }

/-- One step of the word placed at the pc. -/
def stepOf (s : State) (w : Nat) : Host.Outcome State Fault Refusal := step (s.withFetchWord 16 w)

/-- The destination of most vectors, and the flag. -/
def v1AndVf (t : State) : Byte × Byte := (t.getV 1, t.getV vf)

/-! ### WellFormed: each check refuses an ill-formed term (R81) -/

theorem test_wf_cls : Instr.wellFormed (.cls 0xA) = false ∧ Instr.wellFormed (.cls 0) = true := by decide
theorem test_wf_ret : Instr.wellFormed (.ret 1) = false ∧ Instr.wellFormed (.ret 0) = true := by decide
theorem test_wf_seReg : Instr.wellFormed (.seReg 1 2 7) = false ∧ Instr.wellFormed (.seReg 1 2 0) = true := by decide
theorem test_wf_sneReg : Instr.wellFormed (.sneReg 1 2 8) = false ∧ Instr.wellFormed (.sneReg 1 2 0) = true := by decide
theorem test_wf_others : oneOfEach.all Instr.wellFormed = true := by decide

/-! ### Decoding: every constructor by a word written out from its pattern (R75 to R77) -/

theorem test_decode_class0 :
    decode 0b0000101011100000 = .ok (.cls 0b1010) ∧ decode 0b0000001111101110 = .ok (.ret 0b0011) := ⟨rfl, rfl⟩
theorem test_decode_jumps :
    decode 0b0001101010111100 = .ok (.jp 0b101010111100) ∧
    decode 0b0010101010111100 = .ok (.call 0b101010111100) := ⟨rfl, rfl⟩
theorem test_decode_immediates :
    decode 0b0011001111111110 = .ok (.seImm 0b0011 0b11111110) ∧
    decode 0b0100010000000001 = .ok (.sneImm 0b0100 0b00000001) ∧
    decode 0b0110101010011101 = .ok (.ldImm 0b1010 0b10011101) ∧
    decode 0b0111000111111110 = .ok (.addImm 0b0001 0b11111110) := ⟨rfl, rfl, rfl, rfl⟩
theorem test_decode_register_skips :
    decode 0b0101000100100111 = .ok (.seReg 0b0001 0b0010 0b0111) ∧
    decode 0b1001111000011100 = .ok (.sneReg 0b1110 0b0001 0b1100) := ⟨rfl, rfl⟩
theorem test_decode_alu :
    decode 0b1000000100100000 = .ok (.ldReg 1 2) ∧ decode 0b1000000100100001 = .ok (.or 1 2) ∧
    decode 0b1000000100100010 = .ok (.and 1 2) ∧ decode 0b1000000100100011 = .ok (.xor 1 2) ∧
    decode 0b1000000100100100 = .ok (.addReg 1 2) ∧ decode 0b1000000100100101 = .ok (.sub 1 2) ∧
    decode 0b1000000100100110 = .ok (.shr 1 2) ∧ decode 0b1000000100100111 = .ok (.subn 1 2) ∧
    decode 0b1000000100101110 = .ok (.shl 1 2) := ⟨rfl, rfl, rfl, rfl, rfl, rfl, rfl, rfl, rfl⟩
theorem test_decode_index_random_draw :
    decode 0b1010001100000001 = .ok (.ldI 0b001100000001) ∧ decode 0b1100001100001111 = .ok (.rnd 3 0b00001111) ∧
    decode 0b1101000100100101 = .ok (.drw 1 2 5) := ⟨rfl, rfl, rfl⟩
theorem test_decode_keys :
    decode 0b1110010110011110 = .ok (.skp 5) ∧ decode 0b1110011110100001 = .ok (.sknp 7) := ⟨rfl, rfl⟩
theorem test_decode_classF :
    decode 0b1111001100000111 = .ok (.ldVDt 3) ∧ decode 0b1111001100010101 = .ok (.ldDtV 3) ∧
    decode 0b1111001100011000 = .ok (.ldStV 3) ∧ decode 0b1111001100011110 = .ok (.addI 3) ∧
    decode 0b1111001100101001 = .ok (.ldF 3) ∧ decode 0b1111001100110011 = .ok (.ldB 3) ∧
    decode 0b1111001101010101 = .ok (.ldMemV 3) ∧ decode 0b1111001101100101 = .ok (.ldVMem 3) :=
  ⟨rfl, rfl, rfl, rfl, rfl, rfl, rfl, rfl⟩

/-- Vectors A39, K7, E5: words with no instruction. -/
theorem test_decode_illegal :
    [0x8128, 0x812F, 0x812C, 0xE09F, 0xE000, 0xF00A, 0xB123, 0x0123, 0x00E1].all
      (fun w : Word => (decode w).toOption == none) = true := by decide

/-- Vector E5: 5000 is SE V0, V0. -/
theorem test_decode_5000 : decode 0x5000 = .ok (.seReg 0 0 0) := rfl

theorem test_decode_short : decodeBytes [0x12] = .error .truncated := rfl

/-- The table's numbering: the word's own bits, in one 16-bit word. -/
theorem test_decodeTableWord :
    decodeTableWord 16 0x2ABC = some (.call 0xABC) ∧ decodeTableWord 16 0xB123 = none := ⟨rfl, rfl⟩

/-- No word matches two rows (R80): any two rows differ in a bit both fix. -/
theorem test_rows_disjoint :
    List.Pairwise (fun a b : Row => a.pattern &&& b.mask ≠ b.pattern &&& a.mask) (oneOfEach.map rowOf) := by decide

/-! ### One step of each instruction -/

/-- D1, D2. -/
theorem test_cls : after (stepOf { State.reset with fb := Framebuffer.flip Framebuffer.dark 3 4 } 0x0AE0)
    (fun t => (t.pixel 3 4, t.dirty)) = some (false, true) := by decide

/-- CF4. -/
theorem test_ret : after (stepOf { State.reset with sp := 1, stack := State.reset.stack.set 1 0x206 } 0x00EE)
    (fun t => (t.pc, t.sp, t.stack[1])) = some (0x206, 0, 0x206) := by decide
/-- CF5. -/
theorem test_ret_underflow : after (stepOf State.reset 0x00EE) (fun t => (t.fault, t.pc)) =
    some (some (.stackUnderflow 0x200 0x00EE), 0x200) := by decide

/-- CF1. -/
theorem test_jp : after (stepOf State.reset 0x1ABC) State.pc = some 0xABC := by decide

/-- CF7. -/
theorem test_call : after (stepOf { State.reset with sp := 14 } 0x2300) (fun t => (t.pc, t.sp, t.stack[15])) =
    some (0x300, 15, 0x202) := by decide
/-- CF6. -/
theorem test_call_overflow : after (stepOf { State.reset with sp := 15 } 0x2300) (fun t => (t.fault, t.pc)) =
    some (some (.stackOverflow 0x200 0x2300), 0x200) := by decide

/-- CF9, CF10. -/
theorem test_seImm : after (stepOf (regs [(3, 0xFF)]) 0x3300) State.pc = some 0x202 ∧
    after (stepOf (regs [(3, 0xFF)]) 0x33FF) State.pc = some 0x204 := by decide
/-- CF11, CF12. -/
theorem test_sneImm : after (stepOf State.reset 0x4300) State.pc = some 0x202 ∧
    after (stepOf State.reset 0x43FF) State.pc = some 0x204 := by decide
/-- CF14, CF16. -/
theorem test_seReg : after (stepOf (regs [(2, 0xFF)]) 0x5120) State.pc = some 0x202 ∧
    after (stepOf (regs [(1, 5), (2, 5)]) 0x5127) State.pc = some 0x204 := by decide
/-- CF17, CF18. -/
theorem test_sneReg : after (stepOf (regs [(2, 0xFF)]) 0x9120) State.pc = some 0x204 ∧
    after (stepOf (regs [(1, 0xFF), (2, 0xFF)]) 0x9120) State.pc = some 0x202 := by decide

/-- LI1. -/
theorem test_ldImm : after (stepOf State.reset 0x6A9D) (fun t => (t.getV 0xA, t.pc)) = some (0x9D, 0x202) := by decide
/-- LI3, LI5. -/
theorem test_addImm : after (stepOf (regs [(1, 0xFF)]) 0x7101) v1AndVf = some (0, 0) ∧
    after (stepOf (regs [(vf, 0xFF)]) 0x7F01) v1AndVf = some (0, 0) := by decide
/-- A1. -/
theorem test_ldReg : after (stepOf (regs [(1, 0x12), (2, 0x34)]) 0x8120) v1AndVf = some (0x34, 0) := by decide
/-- A5. -/
theorem test_or : after (stepOf (regs [(1, 0xF0), (2, 0x0F), (vf, 1)]) 0x8121) v1AndVf = some (0xFF, 1) := by decide
/-- A3. -/
theorem test_and : after (stepOf (regs [(1, 0xF0), (2, 0x3C)]) 0x8122) v1AndVf = some (0x30, 0) := by decide
/-- A4. -/
theorem test_xor : after (stepOf (regs [(1, 0xFF), (2, 0x0F)]) 0x8123) v1AndVf = some (0xF0, 0) := by decide
/-- A10. -/
theorem test_addReg : after (stepOf (regs [(1, 0xFF), (2, 0xFF)]) 0x8124) v1AndVf = some (0xFE, 1) := by decide
/-- A29. -/
theorem test_addReg_into_vf : after (stepOf (regs [(vf, 0xFF), (2, 1)]) 0x8F24) (·.getV vf) = some 1 := by decide
/-- A12, A15. -/
theorem test_sub : after (stepOf (regs [(1, 5), (2, 5)]) 0x8125) v1AndVf = some (0, 0) ∧
    after (stepOf (regs [(1, 1), (2, 0xFF)]) 0x8125) v1AndVf = some (2, 0) := by decide
/-- A30. -/
theorem test_sub_into_vf : after (stepOf (regs [(vf, 0x10), (2, 1)]) 0x8F25) (·.getV vf) = some 1 := by decide
/-- A18. -/
theorem test_shr : after (stepOf (regs [(1, 0xFF), (2, 0x40)]) 0x8126) v1AndVf = some (0x7F, 1) := by decide
/-- A31. -/
theorem test_shr_into_vf : after (stepOf (regs [(vf, 3)]) 0x8F06) (·.getV vf) = some 1 := by decide
/-- A20, A21. -/
theorem test_subn : after (stepOf (regs [(1, 1), (2, 0x10)]) 0x8127) v1AndVf = some (0x0F, 1) ∧
    after (stepOf (regs [(1, 5), (2, 5)]) 0x8127) v1AndVf = some (0, 0) := by decide
/-- A33. -/
theorem test_subn_into_vf : after (stepOf (regs [(vf, 1), (2, 0x10)]) 0x8F27) (·.getV vf) = some 1 := by decide
/-- A24, A27. -/
theorem test_shl : after (stepOf (regs [(1, 0x80)]) 0x812E) v1AndVf = some (0, 1) ∧
    after (stepOf (regs [(1, 0x50)]) 0x812E) v1AndVf = some (0xA0, 0) := by decide
/-- A27 under the other mask. -/
theorem test_shl_mask_50 : after (stepOf (under { Params.default with shlFlagMask := 0x50 } (regs [(1, 0x50)])) 0x812E) v1AndVf = some (0xA0, 1) := by decide

/-- M2. -/
theorem test_ldI : after (stepOf State.reset 0xAFFF) State.i = some 0xFFF := by decide
/-- M5. -/
theorem test_addI : after (stepOf { regs [(5, 1)] with i := 0xFFFF } 0xF51E) (fun t => (t.i, t.fault)) =
    some (0, none) := by decide
/-- M8, S7. -/
theorem test_ldF : after (stepOf (regs [(0, 0xFF)]) 0xF029) State.i = some 0x4FB ∧
    after (stepOf (regs [(0, 0xA)]) 0xF029) (fun t => t.readBytes t.i.toNat 5) =
      some [0xF0, 0x90, 0xF0, 0x90, 0x90] := by decide
/-- S6. -/
theorem test_ldB : after (stepOf { regs [(3, 157)] with i := 0x300 } 0xF333)
    (fun t => (t.readBytes 0x300 3, t.i)) = some ([1, 5, 7], 0x300) := by decide
/-- M12. -/
theorem test_ldB_outside : after (stepOf { regs [(3, 157)] with i := 0xFFE } 0xF333)
    (fun t => (t.fault, t.readByte 0xFFE)) = some (some (.memoryOutOfBounds 0x200 (some 0xF333) 0x1000), 0) := by decide
/-- M13. -/
theorem test_ldMemV : after (stepOf { regs [(0, 0x11), (1, 0x22), (2, 0x33)] with i := 0x300 } 0xF155)
    (fun t => (t.readBytes 0x300 3, t.i)) = some ([0x11, 0x22, 0], 0x300) := by decide
/-- M16. -/
theorem test_ldMemV_outside : after (stepOf { regs [(0, 0x11)] with i := 0xFFF } 0xF155)
    (fun t => (t.fault, t.readByte 0xFFF)) = some (some (.memoryOutOfBounds 0x200 (some 0xF155) 0x1000), 0) := by decide
/-- M18. -/
theorem test_ldVMem : after (stepOf { regs [(3, 9)] with i := 0x300, mem := [(0x300, 1), (0x301, 5), (0x302, 7)] } 0xF265)
    (fun t => ([t.getV 0, t.getV 1, t.getV 2, t.getV 3], t.i)) = some ([1, 5, 7, 9], 0x300) := by decide
/-- M21. -/
theorem test_ldVMem_outside : after (stepOf { regs [(0, 0x11)] with i := 0xFF1 } 0xFF65)
    (fun t => (t.fault, t.getV 0)) = some (some (.memoryOutOfBounds 0x200 (some 0xFF65) 0x1000), 0x11) := by decide

/-- The lit pixels of a framebuffer, as (x, y). -/
def lit (t : State) : List (Nat × Nat) :=
  (List.finRange 32).flatMap fun y => (List.finRange 64).filterMap fun x => if t.pixel x y then some (x.val, y.val) else none

/-- D3. -/
theorem test_drw_wraps : after (stepOf { regs [(1, 62), (2, 30)] with i := 0x032 } 0xD125) (fun t => (lit t, t.getV vf)) =
    some ([(0, 0), (1, 0), (62, 0), (63, 0), (1, 1), (62, 1), (1, 2), (62, 2)] ++
      [(0, 30), (1, 30), (62, 30), (63, 30), (1, 31), (62, 31)], 0) := by decide
/-- D9. -/
theorem test_drw_collides : after (stepOf
      { State.reset with fb := Framebuffer.flip Framebuffer.dark 0 0, i := 0x300, mem := [(0x300, 0x80)] } 0xD011) (fun t => (t.pixel 0 0, t.getV vf, t.dirty)) = some (false, 1, true) := by decide

/-- K1. -/
theorem test_skp : after (stepOf ((regs [(5, 5)]).setKey 5 true) 0xE59E) (fun t => (t.pc, t.keyDown 5)) =
    some (0x204, false) := by decide
/-- K5. -/
theorem test_skp_outside : after (stepOf (regs [(0, 0x10)]) 0xE09E) State.fault =
    some (some (.keyIndexOutOfRange 0x200 0xE09E 0x10)) := by decide
/-- K3, K4. -/
theorem test_sknp : after (stepOf (regs [(0, 3)]) 0xE0A1) State.pc = some 0x204 ∧
    after (stepOf ((regs [(0, 3)]).setKey 3 true) 0xE0A1) (fun t => (t.pc, t.keyDown 3)) = some (0x202, false) := by decide
/-- K4 under the other parameter. -/
theorem test_sknp_keeps : after (stepOf (under { Params.default with exa1Consumes := false } ((regs [(0, 3)]).setKey 3 true)) 0xE0A1)
    (fun t => (t.pc, t.keyDown 3)) =
    some (0x202, true) := by decide
/-- T2. -/
theorem test_ldVDt : after (stepOf { State.reset with dt := 0x3C } 0xF307) (·.getV 3) = some 0x3C := by decide
/-- T1. -/
theorem test_ldDtV : after (stepOf (regs [(3, 0x3C)]) 0xF315) State.dt = some 0x3C := by decide
/-- T3. -/
theorem test_ldStV : after (stepOf (regs [(3, 5)]) 0xF318) State.st = some 5 := by decide
/-- LI7: whatever the byte, the mask 00 leaves 0. -/
theorem test_rnd : after (stepOf (regs [(3, 0x44)]) 0xC300) (·.getV 3) = some 0 := by
  show some (Config.randomByte 0 &&& 0) = some 0
  simp

/-! ### Fetch, ticks, loading -/

/-- E1: an empty image. -/
theorem test_empty_image : after (step State.reset) State.fault = some (some (.decodeError 0x200 0x0000)) := by decide
/-- E4, CF20: a fetch past the end of memory. -/
theorem test_fetch_outside :
    after (step { State.reset with pc := 0xFFF }) State.fault = some (some (.memoryOutOfBounds 0xFFF none 0x1000)) ∧
    after (step { State.reset with pc := 0x1002 }) State.fault = some (some (.memoryOutOfBounds 0x1002 none 0x1002)) := by
  decide
/-- T4, T5. -/
theorem test_tick : (State.tick { State.reset with dt := 2 }).dt = 1 ∧ (State.tick { State.reset with dt := 2 }).st = 0 := by
  decide
/-- Under another memory size and program base, initialize puts the image there and refuses one byte more (R240). -/
theorem test_load_elsewhere :
    ((State.resetWith { Params.default with memSize := 0x604, programBase := 0x600 }).initCore
      (some [0x12, 0x34, 0x56, 0x78])).fetchWord = 0x1234 ∧
    ((State.resetWith { Params.default with memSize := 0x604, programBase := 0x600 }).initCore
      (some [0x12, 0x34, 0x56, 0x78, 0x9A])).fault = some (.programLoadFailure (some 5)) := by decide
/-- Glyphs 0, 9, A, B and F of the table of R36, and the byte after the font. -/
theorem test_font : State.reset.readBytes 0x000 5 = [0xF0, 0x90, 0x90, 0x90, 0xF0] ∧
    State.reset.readBytes 0x02D 5 = [0xF0, 0x90, 0xF0, 0x10, 0xF0] ∧
    State.reset.readBytes 0x032 5 = [0xF0, 0x90, 0xF0, 0x90, 0x90] ∧
    State.reset.readBytes 0x037 5 = [0xE0, 0x90, 0xE0, 0x90, 0xE0] ∧
    State.reset.readBytes 0x04B 5 = [0xF0, 0x80, 0xF0, 0x80, 0x80] ∧ State.reset.readByte 0x050 = 0 := by decide
/-- P1's image: its first word is fetched big-endian from 0x200. -/
theorem test_load : ((State.reset.initCore (some [0x00, 0xE0, 0x12, 0x02])).fetchWord) = 0x00E0 := by decide

/-! ### Witnesses: inputs that meet each statement's hypotheses, clause by clause -/

/-- A word for each `DecodesAs` clause of the statements. -/
theorem witness_DecodesAs :
    (0x0AEE : Word) &&& 0xF0FF = 0x00EE ∧ (0x1FFF : Word) &&& 0xF000 = 0x1000 ∧ (0x3F00 : Word) &&& 0xF000 = 0x3000 ∧
    (0x40FF : Word) &&& 0xF000 = 0x4000 ∧ (0x512F : Word) &&& 0xF000 = 0x5000 ∧ (0x912F : Word) &&& 0xF000 = 0x9000 ∧
    (0x6A9D : Word) &&& 0xF000 = 0x6000 ∧ (0x71FF : Word) &&& 0xF000 = 0x7000 ∧ (0x8FE0 : Word) &&& 0xF00F = 0x8000 ∧
    (0xAFFF : Word) &&& 0xF000 = 0xA000 ∧ (0xFF29 : Word) &&& 0xF0FF = 0xF029 ∧ (0x0FE0 : Word) &&& 0xF0FF = 0x00E0 ∧
    (0x2FFF : Word) &&& 0xF000 = 0x2000 ∧ (0x8FE1 : Word) &&& 0xF00F = 0x8001 ∧ (0x8FE2 : Word) &&& 0xF00F = 0x8002 ∧
    (0x8FE3 : Word) &&& 0xF00F = 0x8003 ∧ (0x8FE4 : Word) &&& 0xF00F = 0x8004 ∧ (0x8FE5 : Word) &&& 0xF00F = 0x8005 ∧
    (0x8FE6 : Word) &&& 0xF00F = 0x8006 ∧ (0x8FE7 : Word) &&& 0xF00F = 0x8007 ∧ (0x8FEE : Word) &&& 0xF00F = 0x800E ∧
    (0xCFFF : Word) &&& 0xF000 = 0xC000 ∧ (0xFF1E : Word) &&& 0xF0FF = 0xF01E ∧ (0xFF33 : Word) &&& 0xF0FF = 0xF033 ∧
    (0xFF55 : Word) &&& 0xF0FF = 0xF055 ∧ (0xFF65 : Word) &&& 0xF0FF = 0xF065 ∧ (0xDFFF : Word) &&& 0xF000 = 0xD000 ∧
    (0xEF9E : Word) &&& 0xF0FF = 0xE09E ∧ (0xEFA1 : Word) &&& 0xF0FF = 0xE0A1 ∧
    (0xFF07 : Word) &&& 0xF0FF = 0xF007 ∧ (0xFF15 : Word) &&& 0xF0FF = 0xF015 ∧ (0xFF18 : Word) &&& 0xF0FF = 0xF018 := by
  decide

theorem witness_EncodeOfDecode : decode 0x5127 = .ok (.seReg 1 2 7) := rfl

/-- One word of each line of the list, and its rejection. -/
theorem witness_IllegalWordsExactly :
    decode 0x00E1 = .error (.noInstruction 0x00E1) ∧ decode 0x8FFF = .error (.noInstruction 0x8FFF) ∧
    decode 0xB000 = .error (.noInstruction 0xB000) ∧ decode 0xEFFF = .error (.noInstruction 0xEFFF) ∧
    decode 0xF000 = .error (.noInstruction 0xF000) := ⟨rfl, rfl, rfl, rfl, rfl⟩

/-- The reset state with the pc at the last word of memory and a skip there. -/
def atTop : State := { State.reset with pc := 0xFFE }.withFetchWord 16 0x3000

/-- A faulted core; a fetch at the first address outside and one byte before it; the last word of memory with an
instruction in it and without. -/
theorem witness_StepRunsDecodedInstruction :
    (State.reset.initCore none).fault = some (.programLoadFailure none) ∧
    State.reset.params.memSize ≤ ({ State.reset with pc := 0x1000 } : State).pc.toNat + 1 ∧
    State.reset.params.memSize ≤ ({ State.reset with pc := 0xFFF } : State).pc.toNat + 1 ∧
    atTop.fault = none ∧ atTop.pc.toNat + 1 < State.reset.params.memSize ∧
    decode (atTop.readByte 0xFFE ++ atTop.readByte 0xFFF) = .ok (.seImm 0 0) ∧
    ({ State.reset with pc := 0xFFE } : State).pc.toNat + 1 < State.reset.params.memSize ∧
    decode (State.reset.readByte 0xFFE ++ State.reset.readByte 0xFFF) = .error (.noInstruction 0) := by
  refine ⟨by decide, by decide, by decide, by decide, by decide, rfl, by decide, rfl⟩

theorem witness_PlacedWordRuns : atTop.fault = none ∧ atTop.pc.toNat + 1 < State.reset.params.memSize ∧
    decodeTableWord 16 0x6A9D = some (.ldImm 0xA 0x9D) := by decide

theorem witness_FaultedCoreIsAbsorbing :
    (State.reset.initCore none).fault = some (.programLoadFailure none) := by decide

theorem witness_UnfaultedStepCompletes : State.reset.fault = none ∧ after (step State.reset) State.pc = some 0x200 := by
  decide

theorem witness_FatalErrorIsPrecise :
    State.reset.fault = none ∧ after (step State.reset) State.fault = some (some (.decodeError 0x200 0)) := by decide

/-- Each of the branches. -/
theorem witness_FatalErrorCauses :
    after (step { State.reset with pc := 0xFFF }) State.fault = some (some (.memoryOutOfBounds 0xFFF none 0x1000)) ∧
    after (step State.reset) State.fault = some (some (.decodeError 0x200 0)) ∧
    after (stepOf State.reset 0x03EE) State.fault = some (some (.stackUnderflow 0x200 0x03EE)) ∧
    after (stepOf { State.reset with sp := 15 } 0x2300) State.fault = some (some (.stackOverflow 0x200 0x2300)) ∧
    after (stepOf (regs [(0, 16)]) 0xE09E) State.fault = some (some (.keyIndexOutOfRange 0x200 0xE09E 16)) ∧
    after (stepOf (regs [(0, 0xFF)]) 0xE0A1) State.fault = some (some (.keyIndexOutOfRange 0x200 0xE0A1 0xFF)) ∧
    after (stepOf { State.reset with i := 0xFFC } 0xD015) State.fault =
      some (some (.memoryOutOfBounds 0x200 (some 0xD015) 0x1000)) ∧
    after (stepOf { State.reset with i := 0x1001 } 0xF033) State.fault =
      some (some (.memoryOutOfBounds 0x200 (some 0xF033) 0x1001)) ∧
    after (stepOf { State.reset with i := 0xFFF } 0xF155) State.fault =
      some (some (.memoryOutOfBounds 0x200 (some 0xF155) 0x1000)) ∧
    after (stepOf { State.reset with i := 0xFF1 } 0xFF65) State.fault =
      some (some (.memoryOutOfBounds 0x200 (some 0xFF65) 0x1000)) := by decide

theorem witness_PcAdvancesByTable : State.reset.fault = none ∧
    after (exec (.ret 0) State.reset) (fun t => (t.fault, t.pc)) = some (some (.stackUnderflow 0x200 0x00EE), 0x200) ∧
    after (exec (.sneImm 0 1) State.reset) (fun t => (t.fault, t.pc)) = some (none, 0x204) ∧
    after (exec (.seImm 0 0) atTop) (fun t => (t.fault, t.pc)) = some (none, 0x1002) ∧
    atTop.pc.toNat + 1 < State.reset.params.memSize ∧ decode atTop.fetchWord = .ok (.seImm 0 0) :=
  ⟨by decide, by decide, by decide, by decide, by decide, rfl⟩

theorem witness_RetPopsReturnAddress : State.reset.sp = 0 ∧ ({ State.reset with sp := 1 } : State).sp ≠ 0 ∧
    ({ State.reset with sp := 15 } : State).sp ≠ 0 := by decide

theorem witness_JumpSetsPc : State.reset.pc.toNat = (0x200 : Addr12).toNat ∧ State.reset.fault = none ∧
    State.reset.params.memSize = 4096 ∧ after (exec (.jp 0xFFF) State.reset) State.pc = some 0xFFF := by decide

theorem witness_CallPushesReturnAddress : ({ State.reset with sp := 15 } : State).sp = 15 ∧
    ({ State.reset with sp := 14 } : State).sp ≠ 15 ∧ State.reset.sp ≠ 15 := by decide

theorem witness_CallThenReturn : ({ State.reset with sp := 14 } : State).sp ≠ 15 := by decide

/-- The highest place a skip can stand, and each of the six skips taken. -/
theorem witness_SkippedWordIsNotDecoded : atTop.fault = none ∧ atTop.pc.toNat + 1 < atTop.params.memSize ∧
    decode atTop.fetchWord = .ok (.seImm 0 0) ∧ Instr.skipTaken (.seImm 0 0) atTop ∧
    Instr.skipTaken (.sneImm 0 1) atTop ∧ Instr.skipTaken (.seReg 0 1 0) atTop ∧
    Instr.skipTaken (.sneReg 0 1 0) (regs [(1, 0xFF)]) ∧
    Instr.skipTaken (.skp 0) ((regs [(0, 15)]).setKey 15 true) ∧ Instr.skipTaken (.sknp 0) (regs [(0, 15)]) := by
  refine ⟨by decide, by decide, rfl, ?_, ?_, ?_, ?_, ⟨15, by decide, by decide⟩, ⟨15, by decide, by decide⟩⟩
  · show atTop.getV 0 = 0; decide
  · show atTop.getV 0 ≠ 1; decide
  · show atTop.getV 0 = atTop.getV 1; decide
  · show (regs [(1, 0xFF)]).getV 0 ≠ (regs [(1, 0xFF)]).getV 1; decide

theorem witness_LoadsAndAddImmediate : (0xE : Nibble) ≠ 0xF := by decide

theorem witness_LogicWritesNoFlag : vf ≠ (1 : Nibble) := by decide

theorem witness_AddRegisterCarry : (1 : Nibble) ≠ vf ∧ (2 : Nibble) ≠ 1 ∧ (2 : Nibble) ≠ vf := by decide

theorem witness_SubtractStrictFlag : (1 : Nibble) ≠ vf ∧ (2 : Nibble) ≠ 1 ∧ (2 : Nibble) ≠ vf := by decide

/-- The default mask; an operand with no bit of it, and with all of it; the same of a mask of two bits. -/
theorem witness_ShiftsTakeOldBit : (0xE : Nibble) ≠ vf ∧ (2 : Nibble) ≠ 0xE ∧ (2 : Nibble) ≠ vf ∧
    State.reset.params.shlFlagMask = 0x80 ∧ State.reset.params.shlFlagMask ≠ 0 ∧
    (regs [(1, 0x7F)]).getV 1 &&& State.reset.params.shlFlagMask = 0 ∧
    (regs [(1, 0x80)]).getV 1 &&& State.reset.params.shlFlagMask = State.reset.params.shlFlagMask ∧
    (0xAF : Byte) &&& 0x50 = 0 ∧ (0x50 : Byte) &&& 0x50 = 0x50 := by decide

theorem witness_RandomByteIsMasked : (0x00 : Byte) = 0 ∧ (0xFF : Byte) = 0xFF ∧ (1 : Nibble) ≠ 3 := by decide

theorem witness_LoadIndexAndGlyph : ((regs [(0, 0xA)]).getV 0).toNat = 0xA ∧ (regs [(0, 0xA)]).mem = State.reset.mem := by
  decide

/-- The last address that fits, with the bytes around it, and the first that does not. -/
theorem witness_StoreDecimalDigits : ({ State.reset with i := 0xFFD } : State).i.toNat + 2 < State.reset.params.memSize ∧
    0xFFC < ({ State.reset with i := 0xFFD } : State).i.toNat ∧
    State.reset.params.memSize ≤ ({ State.reset with i := 0xFFE } : State).i.toNat + 2 := by decide

theorem witness_DumpRegisters : ({ State.reset with i := 0xFF0 } : State).i.toNat + (0xF : Nibble).toNat < State.reset.params.memSize ∧
    ({ State.reset with i := 0xFFF } : State).i.toNat + (0 : Nibble).toNat < State.reset.params.memSize ∧
    (0xF : Nibble).toNat ≤ (0xF : Nibble).toNat ∧ 0xFEF < ({ State.reset with i := 0xFF0 } : State).i.toNat ∧
    State.reset.params.memSize ≤ ({ State.reset with i := 0xFF1 } : State).i.toNat + (0xF : Nibble).toNat := by decide

theorem witness_LoadRegisters : ({ State.reset with i := 0xFF0 } : State).i.toNat + (0xF : Nibble).toNat < State.reset.params.memSize ∧
    State.reset.params.memSize ≤ ({ State.reset with i := 0xFF1 } : State).i.toNat + (0xF : Nibble).toNat := by decide

theorem witness_DumpThenLoadRestores :
    ({ State.reset with i := 0xFF0 } : State).i.toNat + (0xF : Nibble).toNat < State.reset.params.memSize ∧
    (0xF : Nibble).toNat ≤ (0xF : Nibble).toNat := by decide

/-- V0 and V1 hold a jump to self for address 0x202, and I points there. -/
def selfPatch : State := { regs [(0, 0x12), (1, 0x02)] with i := 0x202 }

theorem witness_StoredWordIsFetchedNext : selfPatch.fault = none ∧
    selfPatch.i.toNat + (1 : Nibble).toNat < State.reset.params.memSize ∧ (0 : Nibble).toNat + 1 ≤ (1 : Nibble).toNat ∧
    (selfPatch.pc + 2).toNat = selfPatch.i.toNat + (0 : Nibble).toNat ∧
    decode (selfPatch.getV 0 ++ selfPatch.getV (0 + 1)) = .ok (.jp 0x202) :=
  ⟨by decide, by decide, by decide, by decide, rfl⟩

theorem witness_DirtySetOnlyByDisplay :
    ({ State.reset with i := 0xFFB } : State).i.toNat + (5 : Nibble).toNat ≤ State.reset.params.memSize ∧ (0 : Nibble) = 0 ∧
    exec (.jp 0x200) State.reset = .next State.reset ∧ (∀ z, Instr.jp 0x200 ≠ .cls z) ∧
    (∀ x y n, Instr.jp 0x200 ≠ .drw x y n) ∧
    after (stepOf { State.reset with dirty := true } 0x1200) State.dirty = some true ∧
    ({ State.reset with dirty := true } : State).dirty = true :=
  ⟨by decide, rfl, rfl, nofun, nofun, by decide, rfl⟩

/-- A dot at 0x300: the sprite row 0x80. -/
def dot : State := { State.reset with i := 0x300, mem := [(0x300, 0x80)] }

theorem dot_covers : dot.spriteCovers 0 0 1 0 0 := ⟨0, 0, by decide, by decide, by decide, by decide, by decide⟩

/-- No row; the last sprite that fits; a covered lit pixel; no lit pixel; the first sprite that does not fit, from inside and
from outside memory. -/
theorem witness_DrawTogglesSpritePixels : (0 : Nibble) = 0 ∧
    ({ State.reset with i := 0xFFB } : State).i.toNat + (5 : Nibble).toNat ≤ State.reset.params.memSize ∧
    (∃ px py, ({ dot with fb := Framebuffer.flip Framebuffer.dark 0 0 } : State).spriteCovers 0 0 1 px py ∧
      ({ dot with fb := Framebuffer.flip Framebuffer.dark 0 0 } : State).pixel px py = true) ∧
    (∀ px py, dot.spriteCovers 0 0 1 px py → dot.pixel px py = false) ∧
    (0 : Nibble) ≠ vf ∧ (5 : Nibble) ≠ 0 ∧
    State.reset.params.memSize < ({ State.reset with i := 0xFFC } : State).i.toNat + (5 : Nibble).toNat ∧
    (1 : Nibble) ≠ 0 ∧ State.reset.params.memSize < ({ State.reset with i := 0x1000 } : State).i.toNat + (1 : Nibble).toNat :=
  ⟨rfl, by decide, ⟨0, 0, dot_covers, by decide⟩, fun px py _ => by
    have h : ∀ (a : Fin 64) (b : Fin 32), dot.pixel a b = false := by decide
    exact h px py, by decide, by decide, by decide, by decide, by decide⟩

theorem witness_DrawTwiceRestores : (0 : Nibble) ≠ vf ∧ (1 : Nibble) ≠ vf ∧
    dot.i.toNat + (1 : Nibble).toNat ≤ State.reset.params.memSize ∧ (∀ px py, dot.pixel px py = false) := by decide

theorem witness_SkipIfPressedConsumes : (15 : Fin 16).val = ((regs [(0, 15)]).getV 0).toNat ∧ (14 : Fin 16) ≠ 15 ∧
    16 ≤ ((regs [(0, 16)]).getV 0).toNat := by decide

theorem witness_SkipIfNotPressed : State.reset.params.exa1Consumes = true ∧
    (under { Params.default with exa1Consumes := false } State.reset).params.exa1Consumes = false ∧ (15 : Fin 16).val = ((regs [(0, 15)]).getV 0).toNat ∧ (14 : Fin 16) ≠ 15 ∧
    16 ≤ ((regs [(0, 16)]).getV 0).toNat := by decide

theorem witness_PressIsObservedOnce : (15 : Fin 16).val = ((regs [(0, 15)]).getV 0).toNat := by decide

theorem witness_TimerMoves : (0 : Nibble) ≠ vf := by decide

theorem witness_TicksCountDown : ({ State.reset with dt := 0xFF } : State).fault = none := by decide

theorem witness_ResetState : 80 ≤ 80 ∧ Params.default.programBase.toNat ≤ Params.default.memSize ∧
    (0x1000 : Word).toNat ≤ Params.default.memSize := by decide

/-- The longest image under the default parameters, with its first and last address and the addresses next to it. -/
theorem witness_InitializeLoadsImage :
    State.reset.params.programBase.toNat + (List.replicate 3584 (0xAB : Byte)).length ≤ State.reset.params.memSize ∧
    State.reset.params.programBase.toNat ≤ 0x200 ∧
    0xFFF < State.reset.params.programBase.toNat + (List.replicate 3584 (0xAB : Byte)).length ∧
    ¬ State.reset.params.programBase.toNat ≤ 0x1FF := by
  rw [List.length_replicate]; decide

/-- A missing image, and the shortest that is too long. -/
theorem witness_InitializeRefusesImage : (none : Option Nat) = (none : Option (List Byte)).map List.length ∧
    (∀ n, (none : Option Nat) = some n → State.reset.params.memSize < State.reset.params.programBase.toNat + n) ∧
    some 3585 = (some (List.replicate 3585 (0 : Byte))).map List.length ∧
    (∀ n, some 3585 = some n → State.reset.params.memSize < State.reset.params.programBase.toNat + n) :=
  ⟨rfl, nofun, by rw [Option.map_some, List.length_replicate], fun n h => by cases h; decide⟩

theorem witness_FirstStepRunsFirstWord :
    State.reset.params.programBase.toNat + (List.replicate 3582 (0 : Byte)).length + 2 ≤ State.reset.params.memSize ∧
    decode ((0x00 : Byte) ++ (0xE0 : Byte)) = .ok (.cls 0) := ⟨by rw [List.length_replicate]; decide, rfl⟩

theorem witness_ResetMeetsInvariant : ({ Params.default with memSize := 0xFFFD, programBase := 0xFFFD } : Params).memSize ≤ 0xFFFD ∧
    ({ Params.default with memSize := 0xFFFD, programBase := 0xFFFD } : Params).programBase.toNat ≤
      ({ Params.default with memSize := 0xFFFD, programBase := 0xFFFD } : Params).memSize := by decide

/-- The highest pc of a run, two bytes past the end of memory. -/
theorem witness_StepKeepsInvariant : State.reset.Inv ∧ atTop.Inv ∧ after (step atTop) State.pc = some 0x1002 ∧
    ({ State.reset with pc := 0x1002 } : State).Inv := by decide

theorem witness_HostRunKeepsInvariant : atTop.Inv := by decide

theorem witness_ParametersAreFixed : after (step atTop) State.pc = some 0x1002 ∧
    after (exec (.seImm 0 0) atTop) State.pc = some 0x1002 := by decide

/-- A register outside the columns of the table, for a row with none, one, two and a range. -/
theorem witness_RegistersWrittenByTable :
    (exec (.jp 0x200) State.reset = .next State.reset ∧ ¬ Instr.writesV (.jp 0x200) vf) ∧
    (after (exec (.addImm 1 0xFF) (regs [(1, 1)])) (·.getV vf) = some 0 ∧ ¬ Instr.writesV (.addImm 1 0xFF) vf) ∧
    ¬ Instr.writesV (.addReg 1 2) 2 ∧ ¬ Instr.writesV (.ldVMem 2) 3 :=
  ⟨⟨rfl, fun h => h⟩, ⟨by decide, by show ¬ vf = 1; decide⟩,
    by show ¬ ((2 : Nibble) = 1 ∨ (2 : Nibble) = vf); decide,
    by show ¬ (3 : Nibble).toNat ≤ (2 : Nibble).toNat; decide⟩

/-- The byte just after a digit store's three and just before a register dump's. -/
theorem witness_MemoryWrittenByTable :
    (after (exec (.ldB 3) dot) (·.readByte 0x303) = some 0 ∧ ¬ Instr.writesMem (.ldB 3) dot 0x303) ∧
    (after (exec (.ldMemV 2) dot) (·.readByte 0x2FF) = some 0 ∧ ¬ Instr.writesMem (.ldMemV 2) dot 0x2FF) ∧
    ¬ Instr.writesMem (.cls 0) dot 0x300 :=
  ⟨⟨by decide, by show ¬ (dot.i.toNat ≤ 0x303 ∧ 0x303 ≤ dot.i.toNat + 2); decide⟩,
    ⟨by decide, by show ¬ (dot.i.toNat ≤ 0x2FF ∧ 0x2FF ≤ dot.i.toNat + (2 : Nibble).toNat); decide⟩,
    fun h => h⟩

theorem witness_IndexWrittenOnlyByItsInstructions : State.reset.i = 0 ∧
    after (exec (.ldI 0x300) State.reset) State.i = some 0x300 := by decide

theorem witness_StackWrittenOnlyByCallAndReturn : State.reset.sp = 0 ∧
    after (exec (.call 0x300) State.reset) (fun t => (t.sp, t.stack[1])) = some (1, 0x202) ∧
    after (exec (.ret 0) { State.reset with sp := 1 }) State.sp = some 0 := by decide

theorem witness_DevicesWrittenOnlyByTheirInstructions : State.reset.dt = 0 ∧ State.reset.st = 0 ∧
    after (exec (.ldDtV 0) (regs [(0, 1)])) State.dt = some 1 ∧ after (exec (.ldStV 0) (regs [(0, 1)])) State.st = some 1 ∧
    after (exec (.sknp 0) (State.reset.setKey 0 true)) (·.keyDown 0) = some false ∧
    after (exec (.drw 0 0 1) dot) (·.pixel 0 0) = some true ∧ dot.pixel 0 0 = false := by decide

theorem witness_FramebufferReadOnlyByDraw : ∀ x y n, Instr.cls 0 ≠ .drw x y n := nofun

theorem witness_NormalEndIsStable : (State.reset.withFetchWord 16 0x1200).normalEnd :=
  ⟨by decide, by decide, 0x200, rfl, by decide⟩

end Sys2Proof.Tests
end

/-! PROOFS. What an instruction, a step and a host action leave of the parameters; the ends of ExA1; the state after reset. -/

namespace Sys2Proof.Machine

/-! ### The parameters under every transition (R40) -/

/-- A checked effect keeps the parameters when its effect does: a taken error writes only the fault record. -/
theorem checked_params {base count : Nat} {w : Word} {s u t : State} (h : checked base count w s u = .next t)
    (hu : u.params = s.params) : t.params = s.params := by
  obtain ⟨a, _, rfl⟩ | ⟨_, rfl⟩ := checked_cases h
  · rfl
  · exact hu

theorem execSkp_params {x : Nibble} {s t : State} (h : execSkp x s = .next t) : t.params = s.params := by
  obtain ⟨_, rfl⟩ | ⟨k, _, ⟨_, rfl⟩ | ⟨_, rfl⟩⟩ := execSkp_cases h <;> rfl

theorem execSknp_params {x : Nibble} {s t : State} (h : execSknp x s = .next t) : t.params = s.params := by
  obtain ⟨_, rfl⟩ | ⟨k, _, ⟨_, rfl⟩ | ⟨_, rfl⟩⟩ := execSknp_cases h
  · rfl
  · split <;> rfl
  · rfl

/-- The instructions that can take an error keep the parameters at both their ends; every other one has a single
next state, an update of other fields. -/
theorem exec_params {i : Instr} {s t : State} (h : exec i s = .next t) : t.params = s.params := by
  cases i with
  | ret => obtain ⟨_, rfl⟩ | ⟨_, rfl⟩ := execRet_cases h <;> rfl
  | call => obtain ⟨_, rfl⟩ | ⟨_, rfl⟩ := execCall_cases h <;> rfl
  | skp => exact execSkp_params h
  | sknp => exact execSknp_params h
  | drw => exact checked_params h rfl
  | ldB => exact checked_params h rfl
  | ldMemV => exact checked_params h rfl
  | ldVMem => exact checked_params h rfl
  | _ => cases h; rfl

theorem step_params {s t : State} (h : step s = .next t) : t.params = s.params := by
  obtain ⟨_, ⟨a, _, rfl⟩ | ⟨_, _, rfl⟩ | ⟨_, i, _, hi⟩⟩ := step_cases h
  · rfl
  · rfl
  · exact exec_params hi

theorem State.afterStep_params (s : State) : s.afterStep.params = s.params := by
  unfold State.afterStep
  split
  · next t ht => exact step_params ht
  · rfl
  · rfl

/-- `initialize` puts every other piece of state back, and the parameters it keeps (R40, R240). -/
theorem State.initCore_params (s : State) (image : Option (List Byte)) : (s.initCore image).params = s.params := by
  unfold State.initCore
  split
  · rfl
  · split <;> rfl

theorem State.tick_params (s : State) : s.tick.params = s.params := by
  unfold State.tick; split <;> rfl

theorem HostAction.apply_params (a : HostAction) (s : State) : (a.apply s).params = s.params := by
  cases a with
  | initCore image => exact s.initCore_params image
  | step => exact s.afterStep_params
  | tick => exact s.tick_params
  | setKey | getKey | inspectFramebuffer | markConsumed => rfl

theorem hostRun_params (as : List HostAction) (s : State) : (hostRun s as).params = s.params := by
  induction as generalizing s with
  | nil => rfl
  | cons a as ih => exact (ih (a.apply s)).trans (a.apply_params s)

/-- Settles O57: by cases on the instruction, then on the step, then by induction over the host's actions. -/
theorem parametersAreFixed : Obligations.ParametersAreFixed :=
  ⟨fun _ _ => step_params, fun _ _ _ => exec_params, hostRun_params⟩

/-! ### ExA1 (R181) -/

theorem decode_of_classE {w : Word} (h : opClass w = 0xE) : decode w = decodeClassE w := by
  simp [decode, h]

theorem decodesAs_sknp : DecodesAs 0xF0FF 0xE0A1 (fun w => .sknp (fieldX w)) := by
  intro w h
  have hk : fieldKk w = 0xA1 := fieldKk_of_mask h rfl rfl
  rw [decode_of_classE (opClass_of_mask h rfl rfl)]
  simp [decodeClassE, hk]

theorem execSknp_of_pressed {x : Nibble} {s : State} {k : Fin 16} (hk : k.val = (s.getV x).toNat)
    (hd : s.keyDown k = true) :
    execSknp x s = .next ((if s.params.exa1Consumes then s.setSlot k false else s).skipIf false) := by
  simp [execSknp, keyIndex_eq_some.2 hk, hd]

theorem execSknp_of_released {x : Nibble} {s : State} {k : Fin 16} (hk : k.val = (s.getV x).toNat)
    (hd : s.keyDown k = false) : execSknp x s = .next (s.skipIf true) := by
  simp [execSknp, keyIndex_eq_some.2 hk, hd]

theorem execSknp_of_noKey {x : Nibble} {s : State} (h : 16 ≤ (s.getV x).toNat) :
    execSknp x s = .next (s.recordFault (.keyIndexOutOfRange s.pc (encode (.sknp x)) (s.getV x))) := by
  rw [execSknp, keyIndex_eq_none.2 h]; rfl

/-- A skip writes the pc and nothing else. -/
theorem unchangedBut_skipIf (s : State) (c : Bool) : UnchangedBut [.pc] s (s.skipIf c) := by
  intro p hp
  cases p with
  | pc => simp at hp
  | _ => simp

/-- A slot write writes the latch and nothing else. -/
theorem unchangedBut_setSlot (s : State) (k : Fin 16) (b : Bool) : UnchangedBut [.keys] s (s.setSlot k b) := by
  intro p hp
  cases p with
  | keys => simp at hp
  | _ => simp

/-- Settles O37: a released key skips, a pressed one is released or kept by `EXA1_CONSUMES`, and no key is the error. -/
theorem skipIfNotPressed : Obligations.SkipIfNotPressed := by
  refine ⟨decodesAs_sknp, fun x s => ⟨fun k hk => ?_, execSknp_of_noKey⟩⟩
  have hskip (c : Bool) : UnchangedBut [.pc, .keys] s (s.skipIf c) := (unchangedBut_skipIf s c).mono (by simp)
  cases hd : s.keyDown k with
  | false => exact ⟨_, execSknp_of_released hk hd, by simp [hd, hskip]⟩
  | true =>
    refine ⟨_, execSknp_of_pressed hk hd, ?_⟩
    cases he : s.params.exa1Consumes with
    | false => simp [hd, hskip]
    | true =>
      refine ⟨by simp, by simp [State.keyDown_setSlot], by simp, fun j hj => by simp [State.keyDown_setSlot, hj], ?_⟩
      exact ((unchangedBut_setSlot s k false).trans (unchangedBut_skipIf _ false)).mono (by simp)

/-! ### The state after reset (R37) -/

section
variable (p : Params)

@[simp] theorem State.resetWith_getV (r : Nibble) : (State.resetWith p).getV r = 0 := by
  simp [State.getV, State.resetWith]

@[simp] theorem State.resetWith_stack (j : Fin 16) : (State.resetWith p).stack[j] = 0 := by
  simp [State.resetWith]

@[simp] theorem State.resetWith_keyDown (k : Fin 16) : (State.resetWith p).keyDown k = false := by
  simp [State.keyDown, State.resetWith]

@[simp] theorem State.resetWith_pixel (x : Fin 64) (y : Fin 32) : (State.resetWith p).pixel x y = false :=
  Framebuffer.get_dark x y

/-- The reset memory is the reset contents: the font, and 0 above it (R36, R58). -/
@[simp] theorem State.resetWith_readByte (a : Nat) : (State.resetWith p).readByte a = resetByte p a := rfl

/-- An empty image fits wherever the program base lies inside memory, and leaves the reset state (R241). -/
theorem State.resetWith_initCore_nil (h : p.programBase.toNat ≤ p.memSize) :
    (State.resetWith p).initCore (some []) = State.resetWith p :=
  (initCore_of_fits (s := State.resetWith p) (image := []) h).trans (reset_eq_loaded_nil p)

end

/-- Settles O42: the reset values under any parameters, and the values the defaults have. -/
theorem resetState : Obligations.ResetState := by
  refine ⟨fun p => ⟨State.resetWith_getV p, rfl, rfl, rfl, State.resetWith_stack p, rfl, rfl, State.resetWith_keyDown p,
    State.resetWith_pixel p, rfl, Memory.readBytes_glyphA, Memory.readBytes_font, fun a ha => ?_, rfl, rfl,
    State.resetWith_initCore_nil p⟩, rfl, rfl, rfl, by decide, by decide, rfl, rfl⟩
  rw [State.resetWith_readByte, resetByte_above ha]

end Sys2Proof.Machine

/-! PROOFS. What each instruction may write, said once for all of them: its parts of the state, its pc, its memory. From
it the tables of who writes what (10_state.md), the invariant of the reachable states, and what no instruction reads. -/

namespace Sys2Proof

open Machine

/-- The parts of the state an instruction that completes may write (the tables of 10_state.md, by instruction). -/
def Instr.mayWrite : Instr → List Part
  | .cls _ => [.pixels, .dirty, .pc]
  | .ret _ => [.sp, .pc]
  | .call _ => [.sp, .stack, .pc]
  | .jp _ | .seImm _ _ | .sneImm _ _ | .seReg _ _ _ | .sneReg _ _ _ => [.pc]
  | .ldImm _ _ | .addImm _ _ | .ldReg _ _ | .or _ _ | .and _ _ | .xor _ _ | .addReg _ _ | .sub _ _ | .shr _ _
  | .subn _ _ | .shl _ _ | .rnd _ _ | .ldVDt _ | .ldVMem _ => [.regs, .pc]
  | .ldI _ | .addI _ | .ldF _ => [.i, .pc]
  | .drw _ _ _ => [.regs, .pixels, .dirty, .pc]
  | .skp _ | .sknp _ => [.keys, .pc]
  | .ldDtV _ => [.dt, .pc]
  | .ldStV _ => [.st, .pc]
  | .ldB _ | .ldMemV _ => [.mem, .pc]

/-! ### Which instructions may write a part -/

theorem Instr.fault_not_mem_mayWrite (i : Instr) : .fault ∉ i.mayWrite := by
  cases i <;> simp [Instr.mayWrite]

theorem Instr.i_mem_mayWrite {i : Instr} :
    .i ∈ i.mayWrite ↔ (∃ nnn, i = .ldI nnn) ∨ (∃ x, i = .addI x) ∨ ∃ x, i = .ldF x := by
  cases i <;> simp [Instr.mayWrite]

theorem Instr.sp_mem_mayWrite {i : Instr} : .sp ∈ i.mayWrite ↔ (∃ nnn, i = .call nnn) ∨ ∃ z, i = .ret z := by
  cases i <;> simp [Instr.mayWrite]

theorem Instr.stack_mem_mayWrite {i : Instr} : .stack ∈ i.mayWrite ↔ ∃ nnn, i = .call nnn := by
  cases i <;> simp [Instr.mayWrite]

theorem Instr.dt_mem_mayWrite {i : Instr} : .dt ∈ i.mayWrite ↔ ∃ x, i = .ldDtV x := by
  cases i <;> simp [Instr.mayWrite]

theorem Instr.st_mem_mayWrite {i : Instr} : .st ∈ i.mayWrite ↔ ∃ x, i = .ldStV x := by
  cases i <;> simp [Instr.mayWrite]

theorem Instr.keys_mem_mayWrite {i : Instr} : .keys ∈ i.mayWrite ↔ ∃ x, i = .skp x ∨ i = .sknp x := by
  cases i <;> simp [Instr.mayWrite]

theorem Instr.pixels_mem_mayWrite {i : Instr} : .pixels ∈ i.mayWrite ↔ (∃ z, i = .cls z) ∨ ∃ x y n, i = .drw x y n := by
  cases i <;> simp [Instr.mayWrite]

theorem Instr.dirty_mem_mayWrite {i : Instr} : .dirty ∈ i.mayWrite ↔ (∃ z, i = .cls z) ∨ ∃ x y n, i = .drw x y n := by
  cases i <;> simp [Instr.mayWrite]

end Sys2Proof

namespace Sys2Proof.Machine

/-! ### The frame of an update of one field -/

section
variable (s : State)

theorem unchangedBut_v (v : Vector Byte 16) : UnchangedBut [.regs] s { s with v := v } := fun p hp => by
  cases p with
  | regs => simp at hp
  | _ => simp [State.keyDown, State.pixel, State.readByte]

theorem unchangedBut_i (a : Word) : UnchangedBut [.i] s { s with i := a } := fun p hp => by
  cases p with
  | i => simp at hp
  | _ => simp [State.getV, State.keyDown, State.pixel, State.readByte]

theorem unchangedBut_pc (a : Word) : UnchangedBut [.pc] s { s with pc := a } := fun p hp => by
  cases p with
  | pc => simp at hp
  | _ => simp [State.getV, State.keyDown, State.pixel, State.readByte]

theorem unchangedBut_dt (b : Byte) : UnchangedBut [.dt] s { s with dt := b } := fun p hp => by
  cases p with
  | dt => simp at hp
  | _ => simp [State.getV, State.keyDown, State.pixel, State.readByte]

theorem unchangedBut_st (b : Byte) : UnchangedBut [.st] s { s with st := b } := fun p hp => by
  cases p with
  | st => simp at hp
  | _ => simp [State.getV, State.keyDown, State.pixel, State.readByte]

theorem unchangedBut_mem (m : Memory) : UnchangedBut [.mem] s { s with mem := m } := fun p hp => by
  cases p with
  | mem => simp at hp
  | _ => simp [State.getV, State.keyDown, State.pixel]

theorem unchangedBut_display (fb : Framebuffer) (d : Bool) :
    UnchangedBut [.pixels, .dirty] s { s with fb := fb, dirty := d } := fun p hp => by
  cases p with
  | pixels | dirty => simp at hp
  | _ => simp [State.getV, State.keyDown, State.readByte]

theorem unchangedBut_push (a : Word) : UnchangedBut [.sp, .stack] s (s.push a) := fun p hp => by
  cases p with
  | sp | stack => simp at hp
  | _ => simp

theorem unchangedBut_pop : UnchangedBut [.sp] s s.pop := fun p hp => by
  cases p with
  | sp => simp at hp
  | _ => simp

/-- The draw counter is the model's own and none of the parts (log entry 3). -/
theorem unchangedBut_draws (n : Nat) : UnchangedBut [] s { s with draws := n } := fun p _ => by
  cases p <;> simp [State.getV, State.keyDown, State.pixel, State.readByte]

end

/-- A write followed by `pc <- pc + 2` changes what the write changes, and the pc. -/
theorem UnchangedBut.advance {ps : List Part} {s t : State} (h : UnchangedBut ps s t) :
    UnchangedBut (ps ++ [.pc]) s t.advance := h.trans (unchangedBut_pc t _)

/-! ### What an instruction can do (R24, R201) -/

/-- What an instruction that takes no error does: the pc becomes the one of R24's table, and nothing outside `mayWrite`
is written. -/
structure Completes (i : Instr) (s t : State) : Prop where
  pc : t.pc = i.newPc s
  frame : UnchangedBut i.mayWrite s t

/-- The target of a jump or call, as R24's table of pcs writes it. -/
theorem zextAddr_eq_ofNat (nnn : Addr12) : zextAddr nnn = BitVec.ofNat 16 nnn.toNat :=
  BitVec.eq_of_toNat_eq (by have := nnn.isLt; simp; omega)

/-- The slot a key skip's register names, as R24's table of pcs reads it. -/
theorem getElem?_key_of_keyIndex {s : State} {b : Byte} {k : Fin 16} (h : keyIndex b = some k) :
    s.key[b.toNat]? = some (s.keyDown k) := by
  rw [← keyIndex_eq_some.1 h]; simp [State.keyDown]

section
variable {s t : State}

theorem checked_completes {i : Instr} {base count : Nat} {w : Word} {u : State} (h : checked base count w s u = .next t)
    (hu : Completes i s u) : (∃ f, t = s.recordFault f) ∨ Completes i s t := by
  obtain ⟨a, _, rfl⟩ | ⟨_, rfl⟩ := checked_cases h
  · exact .inl ⟨_, rfl⟩
  · exact .inr hu

theorem execSkp_completes {x : Nibble} (h : execSkp x s = .next t) :
    (∃ f, t = s.recordFault f) ∨ Completes (.skp x) s t := by
  obtain ⟨_, rfl⟩ | ⟨k, hk, ⟨hd, rfl⟩ | ⟨hd, rfl⟩⟩ := execSkp_cases h
  · exact .inl ⟨_, rfl⟩
  · exact .inr ⟨by simp [Instr.newPc, getElem?_key_of_keyIndex hk, hd],
      (unchangedBut_setSlot s k false).trans (unchangedBut_skipIf _ true)⟩
  · exact .inr ⟨by simp [Instr.newPc, getElem?_key_of_keyIndex hk, hd],
      (unchangedBut_skipIf s false).mono (by simp [Instr.mayWrite])⟩

theorem execSknp_completes {x : Nibble} (h : execSknp x s = .next t) :
    (∃ f, t = s.recordFault f) ∨ Completes (.sknp x) s t := by
  obtain ⟨_, rfl⟩ | ⟨k, hk, ⟨hd, rfl⟩ | ⟨hd, rfl⟩⟩ := execSknp_cases h
  · exact .inl ⟨_, rfl⟩
  · have hslot : UnchangedBut [.keys] s (if s.params.exa1Consumes then s.setSlot k false else s) := by
      split
      · exact unchangedBut_setSlot s k false
      · exact fun p _ => Part.same_refl s p
    exact .inr ⟨by simp [Instr.newPc, getElem?_key_of_keyIndex hk, hd, apply_ite State.pc],
      hslot.trans (unchangedBut_skipIf _ false)⟩
  · exact .inr ⟨by simp [Instr.newPc, getElem?_key_of_keyIndex hk, hd],
      (unchangedBut_skipIf s true).mono (by simp [Instr.mayWrite])⟩

/-- Every instruction that answers a next state has taken an error, which writes the fault record alone, or completes. -/
theorem exec_cases {i : Instr} (h : exec i s = .next t) : (∃ f, t = s.recordFault f) ∨ Completes i s t := by
  cases i with
  | cls => cases h; exact .inr ⟨rfl, (unchangedBut_display s _ _).advance⟩
  | ret =>
    obtain ⟨_, rfl⟩ | ⟨_, rfl⟩ := execRet_cases h
    · exact .inl ⟨_, rfl⟩
    · exact .inr ⟨rfl, (unchangedBut_pop s).trans (unchangedBut_pc s.pop _)⟩
  | call nnn =>
    obtain ⟨_, rfl⟩ | ⟨_, rfl⟩ := execCall_cases h
    · exact .inl ⟨_, rfl⟩
    · exact .inr ⟨zextAddr_eq_ofNat nnn, (unchangedBut_push s _).trans (unchangedBut_pc (s.push _) _)⟩
  | jp nnn => cases h; exact .inr ⟨zextAddr_eq_ofNat nnn, unchangedBut_pc s _⟩
  | seImm | sneImm | seReg | sneReg =>
    cases h; exact .inr ⟨by simp [Instr.newPc, add_ite], unchangedBut_skipIf s _⟩
  | ldI | addI | ldF => cases h; exact .inr ⟨rfl, (unchangedBut_i s _).advance⟩
  | rnd => cases h; exact .inr ⟨rfl, ((unchangedBut_draws s _).trans (unchangedBut_v s.afterDraw _)).advance⟩
  | drw =>
    exact checked_completes h
      ⟨rfl, (((unchangedBut_display s _ _).trans (unchangedBut_v _ _)).advance).mono (by simp [Instr.mayWrite])⟩
  | skp => exact execSkp_completes h
  | sknp => exact execSknp_completes h
  | ldDtV => cases h; exact .inr ⟨rfl, (unchangedBut_dt s _).advance⟩
  | ldStV => cases h; exact .inr ⟨rfl, (unchangedBut_st s _).advance⟩
  | ldB | ldMemV => exact checked_completes h ⟨rfl, (unchangedBut_mem s _).advance⟩
  | ldVMem => exact checked_completes h ⟨rfl, (unchangedBut_v s _).advance⟩
  | _ => cases h; exact .inr ⟨rfl, (unchangedBut_v s _).advance⟩

/-- Nothing outside `mayWrite` but the fault record differs after an instruction. -/
theorem exec_same {i : Instr} {p : Part} (h : exec i s = .next t) (hp : p ∉ i.mayWrite) (hf : p ≠ .fault) : p.same s t := by
  obtain ⟨f, rfl⟩ | hc := exec_cases h
  · cases p with
    | fault => exact absurd rfl hf
    | _ => simp
  · exact hc.frame p hp

/-- A part that differs after an instruction is one that it may write. -/
theorem mem_mayWrite_of_changed {i : Instr} {p : Part} (h : exec i s = .next t) (hf : p ≠ .fault) (hp : ¬ p.same s t) :
    p ∈ i.mayWrite := by
  by_contra hm
  exact hp (exec_same h hm hf)

end

/-! ### The invariant of the reachable states (R25, R51, R100) -/

section
variable {s t : State}

theorem checked_store_mem_cases {a : Nat} {bs : List Byte} {w : Word}
    (h : checked a bs.length w s (s.storeBytes a bs).advance = .next t) :
    t.mem = s.mem ∨ ∃ a bs, a + bs.length ≤ s.params.memSize ∧ t.mem = (s.storeBytes a bs).mem := by
  obtain ⟨_, _, rfl⟩ | ⟨hb, rfl⟩ := checked_cases h
  · exact .inl rfl
  · obtain h0 | hfits := (outOfBounds_eq_none _ _).1 hb
    · rw [List.length_eq_zero_iff.1 h0]; exact .inl rfl
    · exact .inr ⟨a, bs, hfits, rfl⟩

/-- Memory after an instruction is what it was, or what a store inside memory leaves (R51, R53). -/
theorem exec_mem_cases {i : Instr} (h : exec i s = .next t) :
    t.mem = s.mem ∨ ∃ a bs, a + bs.length ≤ s.params.memSize ∧ t.mem = (s.storeBytes a bs).mem := by
  cases i with
  | ldB x => exact checked_store_mem_cases (bs := decimalDigits (s.getV x)) h
  | ldMemV x => exact checked_store_mem_cases (by rw [State.length_dumpV]; exact h)
  | ret => obtain ⟨_, rfl⟩ | ⟨_, rfl⟩ := execRet_cases h <;> exact .inl rfl
  | call => obtain ⟨_, rfl⟩ | ⟨_, rfl⟩ := execCall_cases h <;> exact .inl rfl
  | skp => obtain ⟨_, rfl⟩ | ⟨_, _, ⟨_, rfl⟩ | ⟨_, rfl⟩⟩ := execSkp_cases h <;> exact .inl rfl
  | sknp =>
    obtain ⟨_, rfl⟩ | ⟨_, _, ⟨_, rfl⟩ | ⟨_, rfl⟩⟩ := execSknp_cases h
    · exact .inl rfl
    · exact .inl (by split <;> rfl)
    · exact .inl rfl
  | drw | ldVMem => obtain ⟨_, _, rfl⟩ | ⟨_, rfl⟩ := checked_cases h <;> exact .inl rfl
  | _ => cases h; exact .inl rfl

/-- Every instruction keeps memory in canonical form. -/
theorem exec_mem_wf {i : Instr} (h : exec i s = .next t) (hm : Memory.wf s.params s.mem = true) :
    Memory.wf t.params t.mem = true := by
  rw [exec_params h]
  obtain he | ⟨a, bs, hb, he⟩ := exec_mem_cases h <;> rw [he]
  · exact hm
  · exact State.wf_storeBytes hm hb

/-- A stack entry after an instruction is what it was, or the address after the instruction (R102). -/
theorem exec_stack_cases {i : Instr} (h : exec i s = .next t) (j : Fin 16) :
    t.stack[j] = s.stack[j] ∨ t.stack[j] = s.pc + 2 := by
  by_cases hm : .stack ∈ i.mayWrite
  · obtain ⟨nnn, rfl⟩ := Instr.stack_mem_mayWrite.1 hm
    obtain ⟨_, rfl⟩ | ⟨_, rfl⟩ := execCall_cases h
    · exact .inl rfl
    · simp only [State.push_stack, Fin.getElem_fin, Vector.getElem_set]
      split
      · exact .inr rfl
      · exact .inl rfl
  · exact .inl (exec_same h hm nofun j)

/-- The pc of R24's table stays inside the bound of the invariant when the instruction was fetched inside memory. -/
theorem newPc_le (i : Instr) (hs : s.Inv) (hf : s.pc.toNat + 1 < s.params.memSize) :
    (i.newPc s).toNat ≤ max s.params.memSize 4096 + 2 := by
  obtain ⟨hsize, -, -, hstack⟩ := hs
  have h2 : (s.pc + 2).toNat = s.pc.toNat + 2 := by rw [BitVec.toNat_add]; simp; omega
  have h4 : (s.pc + 4).toNat = s.pc.toNat + 4 := by rw [BitVec.toNat_add]; simp; omega
  cases i with
  | ret => have := hstack s.sp; simp only [Instr.newPc]; omega
  | jp nnn | call nnn =>
    have := nnn.isLt; simp only [Instr.newPc, BitVec.toNat_ofNat]; omega
  | seImm | sneImm | seReg | sneReg | skp | sknp => simp only [Instr.newPc]; split <;> omega
  | _ => simp only [Instr.newPc]; omega

/-- An instruction fetched inside memory keeps the invariant. -/
theorem exec_inv {i : Instr} (hs : s.Inv) (hf : s.pc.toNat + 1 < s.params.memSize) (h : exec i s = .next t) : t.Inv := by
  have ⟨hsize, hmem, hpc, hstack⟩ := hs
  have hp := exec_params h
  refine ⟨hp ▸ hsize, exec_mem_wf h hmem, ?_, fun j => ?_⟩ <;> rw [hp]
  · obtain ⟨f, rfl⟩ | hc := exec_cases h
    · exact hpc
    · rw [hc.pc]; exact newPc_le i hs hf
  · obtain he | he := exec_stack_cases h j <;> rw [he]
    · exact hstack j
    · rw [BitVec.toNat_add]; simp; omega

/-- A step ends in an error, which leaves all that the invariant speaks of, or in an instruction fetched inside memory. -/
theorem step_inv (hs : s.Inv) (h : step s = .next t) : t.Inv := by
  obtain ⟨_, ⟨_, _, rfl⟩ | ⟨_, _, rfl⟩ | ⟨hf, i, _, hi⟩⟩ := step_cases h
  · exact hs
  · exact hs
  · exact exec_inv hs ((fetchFault_eq_none s).1 hf) hi

end

/-- Settles O47: memory, pc and stack entry by entry, from what an instruction can do. -/
theorem stepKeepsInvariant : Obligations.StepKeepsInvariant := fun _ _ => step_inv

theorem resetWith_inv {p : Params} (hsize : p.memSize ≤ 0xFFFD) (hbase : p.programBase.toNat ≤ p.memSize) :
    (State.resetWith p).Inv :=
  ⟨hsize, Memory.wf_reset p, by show p.programBase.toNat ≤ max p.memSize 4096 + 2; omega,
    fun j => by rw [State.resetWith_stack]; exact Nat.zero_le _⟩

/-- Settles O46: the reset memory is empty, its stack zero, and its pc the program base. -/
theorem resetMeetsInvariant : Obligations.ResetMeetsInvariant :=
  ⟨resetWith_inv (by decide) (by decide), fun _ => resetWith_inv⟩

section
variable {s : State}

/-- Loading starts from the reset state and stores an image inside memory, or records an error. -/
theorem State.initCore_inv (hs : s.Inv) (image : Option (List Byte)) : (s.initCore image).Inv := by
  cases image with
  | none => exact hs
  | some image =>
    rcases Nat.lt_or_ge s.params.memSize (s.params.programBase.toNat + image.length) with hlong | hfits
    · rw [initCore_of_too_long hlong]; exact hs
    · obtain ⟨hsize, hmem, hpc, hstack⟩ := resetWith_inv (p := s.params) hs.1 (by omega)
      rw [initCore_of_fits hfits]
      exact ⟨hsize, Memory.wf_writeBytes image hmem hfits, hpc, hstack⟩

theorem State.afterStep_inv (hs : s.Inv) : s.afterStep.Inv := by
  unfold State.afterStep
  split
  · next ht => exact step_inv hs ht
  · exact hs
  · exact hs

theorem State.tick_inv (hs : s.Inv) : s.tick.Inv := by
  unfold State.tick; split <;> exact hs

theorem HostAction.apply_inv (a : HostAction) (hs : s.Inv) : (a.apply s).Inv := by
  cases a with
  | initCore image => exact State.initCore_inv hs image
  | step => exact State.afterStep_inv hs
  | tick => exact State.tick_inv hs
  | setKey | getKey | inspectFramebuffer | markConsumed => exact hs

end

/-- Settles O48: by induction over the actions, each of which keeps the invariant. -/
theorem hostRunKeepsInvariant : Obligations.HostRunKeepsInvariant := by
  intro as
  induction as with
  | nil => exact fun _ hs => hs
  | cons a as ih => exact fun s hs => ih (a.apply s) (a.apply_inv hs)

/-! ### Who writes what (R22, R24, R26 to R33) -/

/-- Settles O11: an error leaves the pc, a completed instruction writes the table's, and the step adds nothing. -/
theorem pcAdvancesByTable : Obligations.PcAdvancesByTable := by
  intro i s t hs h
  refine ⟨fun hf => ?_, fun hf => ?_, fun hpc hd => ?_⟩
  · obtain ⟨f, rfl⟩ | hc := exec_cases h
    · rfl
    · exact absurd ((hc.frame .fault i.fault_not_mem_mayWrite).trans hs) hf
  · obtain ⟨f, rfl⟩ | hc := exec_cases h
    · exact absurd hf nofun
    · exact hc.pc
  · rw [step_of_decode hs ((fetchFault_eq_none s).2 hpc) hd, h]

/-- Settles O51: I is written by the three instructions whose `mayWrite` holds it. -/
theorem indexWrittenOnlyByItsInstructions : Obligations.IndexWrittenOnlyByItsInstructions := fun _ _ _ h hi =>
  Instr.i_mem_mayWrite.1 (mem_mayWrite_of_changed h nofun hi)

/-- A call pushes above the entry SP names, so never at entry 0 (R28). -/
theorem execCall_stack_zero {nnn : Addr12} {s t : State} (h : execCall nnn s = .next t) :
    t.stack[(0 : Fin 16)] = s.stack[(0 : Fin 16)] := by
  obtain ⟨_, rfl⟩ | ⟨hsp, rfl⟩ := execCall_cases h
  · rfl
  · have h0 : (s.sp + 1).val ≠ 0 := by
      have hne : ∀ k : Fin 16, k ≠ 15 → (k + 1).val ≠ 0 := by decide
      exact hne s.sp hsp
    simp [h0]

/-- Settles O52: SP and the stack by `mayWrite`, and entry 0 by the call's check of SP. -/
theorem stackWrittenOnlyByCallAndReturn : Obligations.StackWrittenOnlyByCallAndReturn := by
  intro i s t h
  refine ⟨fun hsp => Instr.sp_mem_mayWrite.1 (mem_mayWrite_of_changed h nofun hsp), fun j hj => ?_, ?_⟩
  · exact Instr.stack_mem_mayWrite.1 (mem_mayWrite_of_changed h nofun fun hsame => hj (hsame j))
  · by_cases hm : .stack ∈ i.mayWrite
    · obtain ⟨nnn, rfl⟩ := Instr.stack_mem_mayWrite.1 hm
      exact execCall_stack_zero h
    · exact exec_same h hm nofun 0

/-- A slot that the release of a pressed key changes is that key's, and goes from pressed to released. -/
theorem setSlot_false_changed {s : State} {b : Byte} {j k : Fin 16} (hj : keyIndex b = some j) (hd : s.keyDown j = true)
    (hk : (s.setSlot j false).keyDown k ≠ s.keyDown k) :
    k.val = b.toNat ∧ s.keyDown k = true ∧ (s.setSlot j false).keyDown k = false := by
  rw [State.keyDown_setSlot] at hk ⊢
  split at hk
  · next e => subst e; exact ⟨keyIndex_eq_some.1 hj, hd, if_pos rfl⟩
  · exact absurd rfl hk

theorem execSkp_key_changed {x : Nibble} {k : Fin 16} {s t : State} (h : execSkp x s = .next t)
    (hk : t.keyDown k ≠ s.keyDown k) :
    k.val = (s.getV x).toNat ∧ s.keyDown k = true ∧ t.keyDown k = false := by
  obtain ⟨_, rfl⟩ | ⟨j, hj, ⟨hd, rfl⟩ | ⟨_, rfl⟩⟩ := execSkp_cases h
  · exact absurd rfl hk
  · exact setSlot_false_changed hj hd hk
  · exact absurd rfl hk

theorem execSknp_key_changed {x : Nibble} {k : Fin 16} {s t : State} (h : execSknp x s = .next t)
    (hk : t.keyDown k ≠ s.keyDown k) :
    k.val = (s.getV x).toNat ∧ s.keyDown k = true ∧ t.keyDown k = false := by
  obtain ⟨_, rfl⟩ | ⟨j, hj, ⟨hd, rfl⟩ | ⟨_, rfl⟩⟩ := execSknp_cases h
  · exact absurd rfl hk
  · cases he : s.params.exa1Consumes <;> simp only [he] at hk ⊢
    · exact absurd rfl hk
    · exact setSlot_false_changed hj hd hk
  · exact absurd rfl hk

/-- Settles O53: each device by `mayWrite`, and the slot by the two key skips. -/
theorem devicesWrittenOnlyByTheirInstructions : Obligations.DevicesWrittenOnlyByTheirInstructions := by
  intro i s t h
  refine ⟨fun hd => Instr.dt_mem_mayWrite.1 (mem_mayWrite_of_changed h nofun hd),
    fun hd => Instr.st_mem_mayWrite.1 (mem_mayWrite_of_changed h nofun hd), fun k hk => ?_, fun px py hp => ?_⟩
  · obtain ⟨x, hx⟩ := Instr.keys_mem_mayWrite.1 (mem_mayWrite_of_changed h nofun fun hsame => hk (hsame k))
    have hslot : k.val = (s.getV x).toNat ∧ s.keyDown k = true ∧ t.keyDown k = false := by
      obtain rfl | rfl := hx
      · exact execSkp_key_changed h hk
      · exact execSknp_key_changed h hk
    exact ⟨⟨x, hx, hslot.1⟩, hslot.2⟩
  · exact Instr.pixels_mem_mayWrite.1 (mem_mayWrite_of_changed h nofun fun hsame => hp (hsame px py))

theorem getV_setVThenFlag_of_ne {s : State} {r q : Nibble} (hr : q ≠ r) (hf : q ≠ vf) (b f : Byte) :
    (s.setVThenFlag r b f).getV q = s.getV q := by
  rw [State.getV_setVThenFlag_other s hf, if_neg hr]

/-- Settles O49: the rows of one register, of a register and the flag, of the draw's flag and of Fx65's range; every
other instruction leaves all registers. -/
theorem registersWrittenByTable : Obligations.RegistersWrittenByTable := by
  intro i s t r h hr
  cases i with
  | ldImm | addImm | ldReg | or | and | xor | rnd | ldVDt => cases h; exact State.getV_setV_other _ hr _
  | addReg | sub | shr | subn | shl =>
    cases h; exact getV_setVThenFlag_of_ne (fun e => hr (.inl e)) (fun e => hr (.inr e)) _ _
  | drw =>
    obtain ⟨_, _, rfl⟩ | ⟨_, rfl⟩ := checked_cases h
    · rfl
    · exact State.getV_setV_other _ hr _
  | ldVMem x =>
    obtain ⟨_, _, rfl⟩ | ⟨_, rfl⟩ := checked_cases h
    · rfl
    · have hx : rangeCount x ≤ r.toNat := Nat.not_le.1 hr
      rw [State.advance_getV, State.getV_loadV, List.getElem?_eq_none (by simpa using hx)]; rfl
  | _ => exact exec_same (p := .regs) h (by simp [Instr.mayWrite]) nofun r

/-- A check that fails at no address is passed, be it of no byte at all. -/
theorem checked_of_inside {base count : Nat} (w : Word) (s u : State) (h : count = 0 ∨ base + count ≤ s.params.memSize) :
    checked base count w s u = .next u := by
  rw [checked, (outOfBounds_eq_none base count).2 h]

/-- What may write the dirty flag sets it. -/
theorem exec_dirty_of_set {i : Instr} {s t : State} (h : exec i s = .next t) (hs : s.dirty = true) : t.dirty = true := by
  by_cases hm : .dirty ∈ i.mayWrite
  · obtain ⟨z, rfl⟩ | ⟨x, y, n, rfl⟩ := Instr.dirty_mem_mayWrite.1 hm
    · cases h; rfl
    · obtain ⟨_, _, rfl⟩ | ⟨_, rfl⟩ := checked_cases h
      · exact hs
      · rfl
  · exact (exec_same h hm nofun : t.dirty = s.dirty).trans hs

theorem step_dirty_of_set {s t : State} (h : step s = .next t) (hs : s.dirty = true) : t.dirty = true := by
  obtain ⟨_, ⟨_, _, rfl⟩ | ⟨_, _, rfl⟩ | ⟨_, i, _, hi⟩⟩ := step_cases h
  · exact hs
  · exact hs
  · exact exec_dirty_of_set hi hs

theorem State.tick_dirty (s : State) : s.tick.dirty = s.dirty := by
  unfold State.tick; split <;> rfl

/-- Settles O33: 00E0 and a draw inside memory set the flag, and `mayWrite` holds it for no other instruction. -/
theorem dirtySetOnlyByDisplay : Obligations.DirtySetOnlyByDisplay := by
  refine ⟨fun z s => ⟨_, rfl, rfl⟩, fun x y n s hn => ⟨_, checked_of_inside _ s _ ?_, rfl⟩, fun i s t h hcls hdrw => ?_,
    fun s t => step_dirty_of_set, fun s => ⟨s.tick_dirty, fun _ _ => rfl, rfl⟩⟩
  · exact hn.imp_left fun h0 => by rw [h0]; rfl
  · refine exec_same (p := .dirty) h (fun hm => ?_) nofun
    obtain ⟨z, hz⟩ | ⟨x, y, n, hn⟩ := Instr.dirty_mem_mayWrite.1 hm
    · exact hcls z hz
    · exact hdrw x y n hn

/-! ### The timers under ticks (R214) -/

theorem tick_of_unfaulted {s : State} (h : s.fault = none) :
    s.tick = { s with dt := countDown s.dt, st := countDown s.st } := if_pos h

/-- Settles O40: by induction on the number of ticks, each of which counts both timers down by one. -/
theorem ticksCountDown : Obligations.TicksCountDown := by
  intro s n
  induction n generalizing s with
  | zero => exact fun _ => ⟨rfl, rfl, fun p _ => Part.same_refl s p⟩
  | succ n ih =>
    intro hs
    have htick := tick_of_unfaulted hs
    have hframe : UnchangedBut [.dt, .st] s s.tick := by
      rw [htick]; exact (unchangedBut_dt s (countDown s.dt)).trans (unchangedBut_st _ _)
    obtain ⟨hdt, hst, hrest⟩ := ih s.tick (by rw [htick]; exact hs)
    refine ⟨?_, ?_, (hframe.trans hrest).mono (by simp)⟩
    · show (hostRun s.tick (List.replicate n .tick)).dt.toNat = _
      rw [hdt, htick, toNat_countDown]; omega
    · show (hostRun s.tick (List.replicate n .tick)).st.toNat = _
      rw [hst, htick, toNat_countDown]; omega

/-! ### Loading an image (R240) -/

/-- Settles O43: an image that fits is one store over the reset state. -/
theorem initializeLoadsImage : Obligations.InitializeLoadsImage := by
  intro s image hfits
  have hreply : HostAction.reply s (.initCore (some image)) = (s.initCore (some image)).report := rfl
  rw [hreply, initCore_of_fits hfits]
  refine ⟨fun a => ?_, fun p hp => ?_, rfl⟩
  · have hread : (s.loaded image).readByte a =
        ((State.resetWith s.params).storeBytes s.params.programBase.toNat image).readByte a := rfl
    rw [hread, State.readByte_storeBytes]
    by_cases hlo : s.params.programBase.toNat ≤ a
    · by_cases hhi : a < s.params.programBase.toNat + image.length
      · have hlt : a - s.params.programBase.toNat < image.length := by omega
        simp [hlo, hhi, List.getElem?_eq_getElem hlt]
      · have hge : image.length ≤ a - s.params.programBase.toNat := by omega
        simp [hlo, hhi, List.getElem?_eq_none hge]
    · simp [hlo]
  · exact (unchangedBut_mem (State.resetWith s.params) _).trans (unchangedBut_draws
      ((State.resetWith s.params).storeBytes s.params.programBase.toNat image) s.draws) p hp

/-! ### The ends of 00EE, 2nnn and Ex9E, by what decides them (R100, R102, R180) -/

theorem execRet_of_empty {z : Nibble} {s : State} (h : s.sp = 0) :
    execRet z s = .next (s.recordFault (.stackUnderflow s.pc (encode (.ret z)))) := if_pos h

theorem execRet_of_nonempty {z : Nibble} {s : State} (h : s.sp ≠ 0) : execRet z s = .next { s.pop with pc := s.top } := if_neg h

theorem execCall_of_full {nnn : Addr12} {s : State} (h : s.sp = 15) :
    execCall nnn s = .next (s.recordFault (.stackOverflow s.pc (encode (.call nnn)))) := if_pos h

theorem execCall_of_room {nnn : Addr12} {s : State} (h : s.sp ≠ 15) :
    execCall nnn s = .next { s.push (s.pc + 2) with pc := zextAddr nnn } := if_neg h

/-- A register names no key or one of the sixteen. -/
theorem noKey_or_key (b : Byte) : 16 ≤ b.toNat ∨ ∃ k : Fin 16, k.val = b.toNat :=
  (Nat.lt_or_ge b.toNat 16).symm.imp_right fun h => ⟨⟨b.toNat, h⟩, rfl⟩

theorem execSkp_of_noKey {x : Nibble} {s : State} (h : 16 ≤ (s.getV x).toNat) :
    execSkp x s = .next (s.recordFault (.keyIndexOutOfRange s.pc (encode (.skp x)) (s.getV x))) := by
  rw [execSkp, keyIndex_eq_none.2 h]; rfl

theorem execSkp_of_pressed {x : Nibble} {s : State} {k : Fin 16} (hk : k.val = (s.getV x).toNat)
    (hd : s.keyDown k = true) : execSkp x s = .next ((s.setSlot k false).skipIf true) := by
  simp [execSkp, keyIndex_eq_some.2 hk, hd]

theorem execSkp_of_released {x : Nibble} {s : State} {k : Fin 16} (hk : k.val = (s.getV x).toNat)
    (hd : s.keyDown k = false) : execSkp x s = .next (s.skipIf false) := by
  simp [execSkp, keyIndex_eq_some.2 hk, hd]

/-! ### What no instruction reads (R30, R32, R33) -/

/-- Other values in the three pieces of state that no instruction but a draw reads. -/
def State.overlay (st : Byte) (dirty : Bool) (fb : Framebuffer) (s : State) : State :=
  { s with st := st, dirty := dirty, fb := fb }

/-- A state as an overlay of itself. -/
theorem State.overlay_self (s : State) : s.overlay s.st s.dirty s.fb = s := rfl

theorem mapNext_mapNext {α : Type} (f : State → α) (g : State → State) (o : Host.Outcome State Fault Refusal) :
    mapNext f (mapNext g o) = mapNext (fun t => f (g t)) o := by
  cases o <;> rfl

section
variable (st : Byte) (dirty : Bool) (fb : Framebuffer) (s : State)

@[simp] theorem State.overlay_params : (s.overlay st dirty fb).params = s.params := rfl
@[simp] theorem State.overlay_dataAddr (k : Nat) : (s.overlay st dirty fb).dataAddr k = s.dataAddr k := rfl

theorem checked_overlay (base count : Nat) (w : Word) (u : State) :
    checked base count w (s.overlay st dirty fb) (u.overlay st dirty fb) =
      mapNext (State.overlay st dirty fb) (checked base count w s u) := by
  simp only [checked, State.overlay_params]
  cases outOfBounds s.params base count <;> rfl

theorem execRet_overlay (z : Nibble) :
    execRet z (s.overlay st dirty fb) = mapNext (State.overlay st dirty fb) (execRet z s) := by
  by_cases h : s.sp = 0
  · rw [execRet_of_empty h, execRet_of_empty (s := s.overlay st dirty fb) h]; rfl
  · rw [execRet_of_nonempty h, execRet_of_nonempty (s := s.overlay st dirty fb) h]; rfl

theorem execCall_overlay (nnn : Addr12) :
    execCall nnn (s.overlay st dirty fb) = mapNext (State.overlay st dirty fb) (execCall nnn s) := by
  by_cases h : s.sp = 15
  · rw [execCall_of_full h, execCall_of_full (s := s.overlay st dirty fb) h]; rfl
  · rw [execCall_of_room h, execCall_of_room (s := s.overlay st dirty fb) h]; rfl

theorem execSkp_overlay (x : Nibble) :
    execSkp x (s.overlay st dirty fb) = mapNext (State.overlay st dirty fb) (execSkp x s) := by
  obtain hk | ⟨k, hk⟩ := noKey_or_key (s.getV x)
  · rw [execSkp_of_noKey hk, execSkp_of_noKey (s := s.overlay st dirty fb) hk]; rfl
  · cases hd : s.keyDown k with
    | true => rw [execSkp_of_pressed hk hd, execSkp_of_pressed (s := s.overlay st dirty fb) hk hd]; rfl
    | false => rw [execSkp_of_released hk hd, execSkp_of_released (s := s.overlay st dirty fb) hk hd]; rfl

theorem execSknp_overlay (x : Nibble) :
    execSknp x (s.overlay st dirty fb) = mapNext (State.overlay st dirty fb) (execSknp x s) := by
  obtain hk | ⟨k, hk⟩ := noKey_or_key (s.getV x)
  · rw [execSknp_of_noKey hk, execSknp_of_noKey (s := s.overlay st dirty fb) hk]; rfl
  · cases hd : s.keyDown k with
    | true =>
      rw [execSknp_of_pressed hk hd, execSknp_of_pressed (s := s.overlay st dirty fb) hk hd, State.overlay_params]
      cases s.params.exa1Consumes <;> rfl
    | false => rw [execSknp_of_released hk hd, execSknp_of_released (s := s.overlay st dirty fb) hk hd]; rfl

/-- An instruction that may write none of the three commutes with an overlay: it reads none of them, and carries them
along. Cxkk draws the same byte in both runs, the draw counters being equal (log entry 3). -/
theorem exec_overlay {i : Instr} (hst : .st ∉ i.mayWrite) (hdirty : .dirty ∉ i.mayWrite) :
    exec i (s.overlay st dirty fb) = mapNext (State.overlay st dirty fb) (exec i s) := by
  cases i with
  | cls | drw => simp [Instr.mayWrite] at hdirty
  | ldStV => simp [Instr.mayWrite] at hst
  | ret z => exact execRet_overlay st dirty fb s z
  | call nnn => exact execCall_overlay st dirty fb s nnn
  | skp x => exact execSkp_overlay st dirty fb s x
  | sknp x => exact execSknp_overlay st dirty fb s x
  | ldB x =>
    exact checked_overlay st dirty fb s _ _ _ (s.storeBytes (s.dataAddr 0) (decimalDigits (s.getV x))).advance
  | ldMemV x => exact checked_overlay st dirty fb s _ _ _ (s.storeBytes (s.dataAddr 0) (s.dumpV x)).advance
  | ldVMem x =>
    exact checked_overlay st dirty fb s _ _ _ (s.loadV (s.readBytes (s.dataAddr 0) (rangeCount x))).advance
  | _ => rfl

end

/-- The sound timer and the dirty flag, hidden, are read by no instruction: those that write them are told apart. -/
theorem exec_hideHostOnly (i : Instr) (s : State) (st : Byte) (dirty : Bool) :
    mapNext State.hideHostOnly (exec i (s.overlay st dirty s.fb)) = mapNext State.hideHostOnly (exec i s) := by
  by_cases hst : .st ∈ i.mayWrite
  · obtain ⟨x, rfl⟩ := Instr.st_mem_mayWrite.1 hst; rfl
  by_cases hdirty : .dirty ∈ i.mayWrite
  · obtain ⟨z, rfl⟩ | ⟨x, y, n, rfl⟩ := Instr.dirty_mem_mayWrite.1 hdirty
    · rfl
    · simp only [exec, execDrw, checked, State.overlay_params, State.overlay_dataAddr]
      cases outOfBounds s.params (s.dataAddr 0) n.toNat <;> rfl
  calc mapNext State.hideHostOnly (exec i (s.overlay st dirty s.fb))
      = mapNext (fun t => (t.overlay st dirty s.fb).hideHostOnly) (exec i s) := by
        rw [exec_overlay st dirty s.fb s hst hdirty, mapNext_mapNext]
    _ = mapNext State.hideHostOnly (exec i (s.overlay s.st s.dirty s.fb)) := by
        rw [exec_overlay s.st s.dirty s.fb s hst hdirty, mapNext_mapNext]; rfl
    _ = mapNext State.hideHostOnly (exec i s) := by rw [State.overlay_self]

/-- Settles O54: no stage of the step before the instruction looks at the two, and no instruction does. -/
theorem soundTimerAndDirtyAreNotRead : Obligations.SoundTimerAndDirtyAreNotRead := by
  intro s st dirty
  show mapNext State.hideHostOnly (step (s.overlay st dirty s.fb)) = _
  cases hf : s.fault with
  | some f => rw [step_of_faulted hf, step_of_faulted (s := s.overlay st dirty s.fb) hf]
  | none =>
    cases ha : s.fetchFault with
    | some a => rw [step_of_fetchFault hf ha, step_of_fetchFault (s := s.overlay st dirty s.fb) hf ha]; rfl
    | none =>
      cases hd : decode s.fetchWord with
      | error e => rw [step_of_reject hf ha hd, step_of_reject (s := s.overlay st dirty s.fb) hf ha hd]; rfl
      | ok i =>
        rw [step_of_decode hf ha hd, step_of_decode (s := s.overlay st dirty s.fb) hf ha hd]
        exact exec_hideHostOnly i s st dirty

/-- Settles O55: 00E0 overwrites the framebuffer, Fx18 carries it along, and the rest commute with an overlay. -/
theorem framebufferReadOnlyByDraw : Obligations.FramebufferReadOnlyByDraw := by
  intro i s fb hdrw
  by_cases hst : .st ∈ i.mayWrite
  · obtain ⟨x, rfl⟩ := Instr.st_mem_mayWrite.1 hst; rfl
  by_cases hdirty : .dirty ∈ i.mayWrite
  · obtain ⟨z, rfl⟩ | ⟨x, y, n, rfl⟩ := Instr.dirty_mem_mayWrite.1 hdirty
    · rfl
    · exact absurd rfl (hdrw x y n)
  calc mapNext (fun t => { t with fb := Framebuffer.dark }) (exec i (s.overlay s.st s.dirty fb))
      = mapNext (fun t => t.overlay s.st s.dirty Framebuffer.dark) (exec i s) := by
        rw [exec_overlay s.st s.dirty fb s hst hdirty, mapNext_mapNext]; rfl
    _ = mapNext (fun t => { t with fb := Framebuffer.dark }) (exec i (s.overlay s.st s.dirty s.fb)) := by
        rw [exec_overlay s.st s.dirty s.fb s hst hdirty, mapNext_mapNext]; rfl
    _ = mapNext (fun t => { t with fb := Framebuffer.dark }) (exec i s) := by rw [State.overlay_self]

end Sys2Proof.Machine

/-! PROOFS. What an access outside memory takes, what a store leaves to be read, loaded and fetched, and what a draw's loops
come to on the state. -/

namespace Sys2Proof.Machine

/-! ### The words of class F (R74, R77) -/

theorem decode_of_classF {w : Word} (h : opClass w = 0xF) : decode w = decodeClassF w := by
  simp [decode, h]

/-- A row of class F is fixed by its low byte. -/
theorem decodesAs_classF {kk : Byte} {made : Word → Instr} (h : ∀ w, fieldKk w = kk → decodeClassF w = .ok (made w)) :
    DecodesAs 0xF0FF (formXKK 0xF 0 kk) made := by
  intro w hw
  rw [decode_of_classF (opClass_of_mask hw rfl (opClass_formXKK ..))]
  exact h w (fieldKk_of_mask hw rfl (fieldKk_formXKK ..))

theorem decodesAs_ldB : DecodesAs 0xF0FF 0xF033 (fun w => .ldB (fieldX w)) :=
  decodesAs_classF (kk := 0x33) fun w hk => by simp [decodeClassF, hk]

theorem decodesAs_ldMemV : DecodesAs 0xF0FF 0xF055 (fun w => .ldMemV (fieldX w)) :=
  decodesAs_classF (kk := 0x55) fun w hk => by simp [decodeClassF, hk]

theorem decodesAs_ldVMem : DecodesAs 0xF0FF 0xF065 (fun w => .ldVMem (fieldX w)) :=
  decodesAs_classF (kk := 0x65) fun w hk => by simp [decodeClassF, hk]

theorem decodesAs_drw : DecodesAs 0xF000 0xD000 (fun w => .drw (fieldX w) (fieldY w) (fieldN w)) := by
  intro w h
  have hc : opClass w = 0xD := opClass_of_mask h rfl rfl
  simp [decode, hc]

section
variable (s : State)

/-! ### A data access outside memory (R52, R53) -/

/-- The lowest failing address, told apart by whether I itself is outside memory. -/
theorem checked_data_of_outside {s : State} {count : Nat} (w : Word) (u : State) (h0 : 0 < count)
    (h : s.params.memSize < s.i.toNat + count) :
    checked (s.dataAddr 0) count w s u = .next { s with fault := some (.memoryOutOfBounds s.pc (some w)
      (if s.params.memSize ≤ s.i.toNat then s.i.toNat else s.params.memSize)) } := by
  rw [← max_def']; exact checked_of_outside w s u h0 h

/-! ### Reading after a store (R55, R57) -/

/-- Where the j-th byte of a store stands. -/
theorem State.readByte_storeBytes_at {a j : Nat} {bs : List Byte} {b : Byte} (h : bs[j]? = some b) :
    (s.storeBytes a bs).readByte (a + j) = b := by
  simp [State.readByte_storeBytes, h]

/-- Below a store and above it every byte is as before. -/
theorem State.readByte_storeBytes_outside {a k : Nat} {bs : List Byte} (h : k < a ∨ a + bs.length ≤ k) :
    (s.storeBytes a bs).readByte k = s.readByte k := by
  rw [State.readByte_storeBytes]
  split
  · rw [List.getElem?_eq_none (by omega), Option.getD_none]
  · rfl

/-- A checked store that ends in an error or stays clear of an address leaves the byte there. -/
theorem readByte_of_checked_store {s t : State} {a k : Nat} {bs : List Byte} {w : Word}
    (h : checked a bs.length w s (s.storeBytes a bs).advance = .next t) (hk : k < a ∨ a + bs.length ≤ k) :
    t.readByte k = s.readByte k := by
  obtain ⟨_, _, rfl⟩ | ⟨_, rfl⟩ := checked_cases h
  · rfl
  · exact s.readByte_storeBytes_outside hk

/-! ### A placed word (R54) -/

/-- High byte at the pc and low byte after it, as the fetch reads them. -/
theorem State.fetchWord_withFetchWord (nbits w : Nat) : (s.withFetchWord nbits w).fetchWord = tableWord nbits w := by
  have hhi : (s.withFetchWord nbits w).readByte s.pc.toNat = highByte (tableWord nbits w) :=
    s.readByte_storeBytes_at (j := 0) rfl
  have hlo : (s.withFetchWord nbits w).readByte (s.pc.toNat + 1) = lowByte (tableWord nbits w) :=
    s.readByte_storeBytes_at (j := 1) rfl
  show wordOfBytes ((s.withFetchWord nbits w).readByte s.pc.toNat) ((s.withFetchWord nbits w).readByte (s.pc.toNat + 1)) = _
  rw [hhi, hlo, wordOfBytes_bytes]

theorem decode_tableWord {nbits w : Nat} {i : Instr} (h : decodeTableWord nbits w = some i) :
    decode (tableWord nbits w) = .ok i := by
  rw [decodeTableWord_eq] at h
  cases hd : decode (tableWord nbits w) with
  | error e => rw [hd] at h; cases h
  | ok j => rw [hd] at h; cases h; rfl

/-! ### The register dump and the register load (R144, R145) -/

/-- After a dump the byte at I + q is Vq. -/
theorem State.readByte_dump {x q : Nibble} (h : q.toNat ≤ x.toNat) :
    (s.storeBytes (s.dataAddr 0) (s.dumpV x)).readByte (s.i.toNat + q.toNat) = s.getV q :=
  s.readByte_storeBytes_at (s.getElem?_dumpV x q h)

theorem execLdMemV_of_inside {s : State} {x : Nibble} (h : s.i.toNat + x.toNat < s.params.memSize) :
    execLdMemV x s = .next (s.storeBytes (s.dataAddr 0) (s.dumpV x)).advance :=
  checked_of_fits _ s _ h

theorem execLdVMem_of_inside {s : State} {x : Nibble} (h : s.i.toNat + x.toNat < s.params.memSize) :
    execLdVMem x s = .next (s.loadV (s.readBytes (s.dataAddr 0) (rangeCount x))).advance :=
  checked_of_fits _ s _ h

theorem lt_rangeCount {j : Nat} {x : Nibble} : j < rangeCount x ↔ j ≤ x.toNat := Nat.lt_succ_iff

/-- After a load Vq is the byte at I + q up to Vx, and as before above it. -/
theorem State.getV_loadV_readBytes (x q : Nibble) :
    (s.loadV (s.readBytes (s.dataAddr 0) (rangeCount x))).getV q =
      if q.toNat ≤ x.toNat then s.readByte (s.i.toNat + q.toNat) else s.getV q := by
  simp only [State.getV_loadV, State.getElem?_readBytes, lt_rangeCount]
  split <;> rfl

/-! ### The draw (R162, R164) -/

/-- Some set bit of some sprite row lands on the pixel: the covering of the statement, as the loops name it. -/
theorem State.spriteCovers_iff {x y n : Nibble} {px : Fin 64} {py : Fin 32} :
    s.spriteCovers x y n px py ↔ ∃ j row, (s.readBytes (s.dataAddr 0) n.toNat)[j]? = some row ∧
      py = wrapRow (s.getV y) (0 + j) ∧ ∃ c < 8, spriteBit row c = true ∧ px = wrapColumn (s.getV x) c := by
  simp only [State.getElem?_readBytes, Option.ite_none_right_eq_some, Option.some.injEq, spriteBit_iff, eq_wrapRow_iff,
    eq_wrapColumn_iff, Nat.zero_add]
  constructor
  · rintro ⟨r, c, hr, hc, hbit, hx, hy⟩
    exact ⟨r, _, ⟨hr, rfl⟩, hy, c, hc, hbit, hx⟩
  · rintro ⟨r, _, ⟨hr, rfl⟩, hy, c, hc, hbit, hx⟩
    exact ⟨r, c, hr, hc, hbit, hx, hy⟩

/-- At most fifteen rows, so no two of them share a pixel. -/
theorem State.length_spriteRows_le (n : Nibble) : 0 + (s.readBytes (s.dataAddr 0) n.toNat).length ≤ 16 := by
  have hn := n.isLt
  rw [State.length_readBytes]; omega

theorem State.blit_toggles (x y n : Nibble) (px : Fin 64) (py : Fin 32) :
    Framebuffer.get (s.blit x y n).fb px py ≠ s.pixel px py ↔ s.spriteCovers x y n px py :=
  ((blitRows_spec _ _ _ 0 ⟨s.fb, false⟩ (s.length_spriteRows_le n)).1 px py).trans s.spriteCovers_iff.symm

theorem State.blit_collision_iff (x y n : Nibble) :
    (s.blit x y n).collision = true ↔ ∃ px py, s.spriteCovers x y n px py ∧ s.pixel px py = true := by
  rw [State.blit, (blitRows_spec _ _ _ 0 ⟨s.fb, false⟩ (s.length_spriteRows_le n)).2]
  simp only [State.spriteCovers_iff, Bool.false_eq_true, false_or]
  constructor
  · rintro ⟨j, row, hrow, c, hc, hbit, hlit⟩
    exact ⟨_, _, ⟨j, row, hrow, rfl, c, hc, hbit, rfl⟩, hlit⟩
  · rintro ⟨_, _, ⟨j, row, hrow, rfl, c, hc, hbit, rfl⟩, hlit⟩
    exact ⟨j, row, hrow, c, hc, hbit, hlit⟩

end

/-! ### The statements about memory and the draw -/

/-- Settles O6: the placed word is the word fetched. -/
theorem placedWordRuns : Obligations.PlacedWordRuns := by
  intro s w i hs hpc hd
  have hfetch : (s.withFetchWord 16 w).fetchFault = none := (fetchFault_eq_none _).2 hpc
  exact step_of_decode hs hfetch (by rw [State.fetchWord_withFetchWord]; exact decode_tableWord hd)

/-- Settles O27: the three digits by their place in the store, and the rest of memory by lying outside it. -/
theorem storeDecimalDigits : Obligations.StoreDecimalDigits := by
  refine ⟨decodesAs_ldB, fun x s => ⟨fun h => ⟨_, checked_of_fits _ s _ h, ?_⟩,
    fun h => checked_data_of_outside _ _ (by decide) (Nat.lt_succ_of_le h)⟩⟩
  have hx := (s.getV x).isLt
  have hdigit {j d : Nat} (hj : (decimalDigits (s.getV x))[j]? = some (BitVec.ofNat 8 d)) (hd : d < 256) :
      ((s.storeBytes (s.dataAddr 0) (decimalDigits (s.getV x))).readByte (s.i.toNat + j)).toNat = d :=
    (congrArg BitVec.toNat (s.readByte_storeBytes_at hj)).trans (Nat.mod_eq_of_lt hd)
  exact ⟨hdigit (j := 0) rfl (by omega), hdigit (j := 1) rfl (by omega), hdigit (j := 2) rfl (by omega),
    fun a ha => s.readByte_storeBytes_outside ha, rfl, (unchangedBut_mem s _).advance⟩

/-- Settles O28: the registers by their place in the store, and the rest of memory by lying outside it. -/
theorem dumpRegisters : Obligations.DumpRegisters := by
  refine ⟨decodesAs_ldMemV, fun x s => ⟨fun h => ⟨_, execLdMemV_of_inside h, ?_⟩,
    fun h => checked_data_of_outside _ _ (Nat.succ_pos _) (Nat.lt_succ_of_le h)⟩⟩
  refine ⟨fun r hr => s.readByte_dump hr, fun a ha => ?_, rfl, (unchangedBut_mem s _).advance⟩
  exact s.readByte_storeBytes_outside (by rw [State.length_dumpV]; exact ha)

/-- Settles O29: what the load leaves in each register. -/
theorem loadRegisters : Obligations.LoadRegisters := by
  refine ⟨decodesAs_ldVMem, fun x s => ⟨fun h => ⟨_, execLdVMem_of_inside h, ?_⟩,
    fun h => checked_data_of_outside _ _ (Nat.succ_pos _) (Nat.lt_succ_of_le h)⟩⟩
  refine ⟨fun r => ?_, by simp, (unchangedBut_v s _).advance⟩
  rw [State.advance_getV, State.getV_loadV_readBytes]

/-- Settles O30: the load reads each register's byte where the dump put it. -/
theorem dumpThenLoadRestores : Obligations.DumpThenLoadRestores := by
  intro x s m hin
  refine ⟨(s.storeBytes (s.dataAddr 0) (s.dumpV x)).advance, _, execLdMemV_of_inside hin, execLdVMem_of_inside hin,
    fun r hr => ?_⟩
  rw [State.advance_getV, State.getV_loadV_readBytes, if_pos hr]
  exact s.readByte_dump hr

/-- Settles O31: the two dumped bytes are the word fetched at the new pc. -/
theorem storedWordIsFetchedNext : Obligations.StoredWordIsFetchedNext := by
  intro x r s i hs hin hrx hpc hd
  refine ⟨_, execLdMemV_of_inside hin, ?_⟩
  have hr1 : (r + 1).toNat = r.toNat + 1 := by
    have hx := x.isLt
    rw [BitVec.toNat_add]; exact Nat.mod_eq_of_lt (show r.toNat + 1 < 16 by omega)
  have hhi : (s.storeBytes (s.dataAddr 0) (s.dumpV x)).readByte (s.pc + 2).toNat = s.getV r := by
    rw [hpc]; exact s.readByte_dump (by omega)
  have hlo : (s.storeBytes (s.dataAddr 0) (s.dumpV x)).readByte ((s.pc + 2).toNat + 1) = s.getV (r + 1) := by
    rw [hpc, Nat.add_assoc, ← hr1]; exact s.readByte_dump (by omega)
  have hfetch : (s.storeBytes (s.dataAddr 0) (s.dumpV x)).advance.fetchWord = s.getV r ++ s.getV (r + 1) :=
    congrArg₂ wordOfBytes hhi hlo
  refine step_of_decode hs ((fetchFault_eq_none _).2 ?_) (hfetch ▸ hd)
  show (s.pc + 2).toNat + 1 < s.params.memSize
  omega

/-- Settles O34: the loops' pixels and collision are those of the covering; an error when a row lies outside memory. -/
theorem drawTogglesSpritePixels : Obligations.DrawTogglesSpritePixels := by
  refine ⟨decodesAs_drw, fun x y n s => ⟨fun hn => ?_, fun hn h => checked_data_of_outside _ _ ?_ h⟩⟩
  · refine ⟨_, checked_of_inside _ s _ (hn.imp_left fun h0 => congrArg BitVec.toNat h0), s.blit_toggles x y n,
      fun hlit => ?_, fun hdark => ?_, rfl, rfl, fun r hr => State.getV_setV_other _ hr _, ?_⟩
    · exact (State.getV_setV_same _ _ _).trans (flagByte_eq_one.2 ((s.blit_collision_iff x y n).2 hlit))
    · have hnone : (s.blit x y n).collision = false := Bool.eq_false_iff.2 fun hc => by
        obtain ⟨px, py, hcov, hlit⟩ := (s.blit_collision_iff x y n).1 hc
        rw [hdark px py hcov] at hlit; cases hlit
      exact (State.getV_setV_same _ _ _).trans (congrArg flagByte hnone)
    · exact ((unchangedBut_display s _ _).trans (unchangedBut_v _ _)).advance.mono (by simp)
  · exact Nat.pos_of_ne_zero fun h0 => hn (BitVec.eq_of_toNat_eq h0)

/-- Settles O50: the two stores write nothing outside their range, and no other instruction may write memory. -/
theorem memoryWrittenByTable : Obligations.MemoryWrittenByTable := by
  intro i s t a h ha
  cases i with
  | ldB x =>
    have ha : ¬ (s.i.toNat ≤ a ∧ a ≤ s.i.toNat + 2) := ha
    exact readByte_of_checked_store (bs := decimalDigits (s.getV x)) h
      (show a < s.i.toNat ∨ s.i.toNat + 3 ≤ a by omega)
  | ldMemV x =>
    have ha : ¬ (s.i.toNat ≤ a ∧ a ≤ s.i.toNat + x.toNat) := ha
    refine readByte_of_checked_store (bs := s.dumpV x) (by rw [State.length_dumpV]; exact h) ?_
    rw [State.length_dumpV]
    show a < s.i.toNat ∨ s.i.toNat + (x.toNat + 1) ≤ a
    omega
  | _ => exact exec_same (p := .mem) h (by simp [Instr.mayWrite]) nofun a

end Sys2Proof.Machine

/-! PROOFS. Decoding against encoding, the words that are no instruction, what a step of an unfaulted core answers and which
error it can take, and the register operations of class 8. -/

namespace Sys2Proof.Machine

/-! ### The decoder by class, and its words (R74 to R78) -/

theorem decode_of_class0 {w : Word} (h : opClass w = 0x0) : decode w = decodeClass0 w := by
  simp [decode, h]

theorem decode_of_class8 {w : Word} (h : opClass w = 0x8) : decode w = decodeClass8 w := by
  simp [decode, h]

/-- Settles O2: in every class the decoder reads back the fields the encoder laid out. -/
theorem decodeOfEncode : Obligations.DecodeOfEncode := by
  intro i
  cases i with
  | cls | ret =>
    rw [encode, decode_of_class0 (opClass_formXKK ..)]
    simp [decodeClass0, fieldKk_formXKK, fieldX_formXKK]
  | jp | call | ldI => simp [encode, decode, opClass_formNNN, fieldNnn_formNNN]
  | seImm | sneImm | ldImm | addImm | rnd => simp [encode, decode, opClass_formXKK, fieldX_formXKK, fieldKk_formXKK]
  | seReg | sneReg | drw => simp [encode, decode, opClass_formXYN, fieldX_formXYN, fieldY_formXYN, fieldN_formXYN]
  | ldReg | or | and | xor | addReg | sub | shr | subn | shl =>
    rw [encode, decode_of_class8 (opClass_formXYN ..)]
    simp [decodeClass8, fieldX_formXYN, fieldY_formXYN, fieldN_formXYN]
  | skp | sknp =>
    rw [encode, decode_of_classE (opClass_formXKK ..)]
    simp [decodeClassE, fieldKk_formXKK, fieldX_formXKK]
  | ldVDt | ldDtV | ldStV | addI | ldF | ldB | ldMemV | ldVMem =>
    rw [encode, decode_of_classF (opClass_formXKK ..)]
    simp [decodeClassF, fieldKk_formXKK, fieldX_formXKK]

section
variable {w : Word} {i : Instr}

theorem encode_of_decodeClass0 (hc : opClass w = 0x0) (h : decodeClass0 w = .ok i) : encode i = w := by
  unfold decodeClass0 at h
  split_ifs at h <;> cases h <;> exact formXKK_of hc ‹_›

theorem encode_of_decodeClass8 (hc : opClass w = 0x8) (h : decodeClass8 w = .ok i) : encode i = w := by
  unfold decodeClass8 at h
  split at h <;> cases h <;> exact formXYN_of hc ‹_›

theorem encode_of_decodeClassE (hc : opClass w = 0xE) (h : decodeClassE w = .ok i) : encode i = w := by
  unfold decodeClassE at h
  split_ifs at h <;> cases h <;> exact formXKK_of hc ‹_›

theorem encode_of_decodeClassF (hc : opClass w = 0xF) (h : decodeClassF w = .ok i) : encode i = w := by
  unfold decodeClassF at h
  split_ifs at h <;> cases h <;> exact formXKK_of hc ‹_›

end

/-- Settles O3: each class keeps all the fields of its format, so the word is rebuilt from them. -/
theorem encodeOfDecode : Obligations.EncodeOfDecode := by
  intro w i h
  rw [decode] at h
  match hc : opClass w, h with
  | 0x0#4, h => exact encode_of_decodeClass0 hc h
  | 0x1#4, h | 0x2#4, h | 0xA#4, h => cases h; exact formNNN_of hc
  | 0x3#4, h | 0x4#4, h | 0x6#4, h | 0x7#4, h | 0xC#4, h => cases h; exact formXKK_of hc rfl
  | 0x5#4, h | 0x9#4, h | 0xD#4, h => cases h; exact formXYN_of hc rfl
  | 0x8#4, h => exact encode_of_decodeClass8 hc h
  | 0xB#4, h => cases h
  | 0xE#4, h => exact encode_of_decodeClassE hc h
  | 0xF#4, h => exact encode_of_decodeClassF hc h

section
variable {w : Word} {e : DecodeReject}

theorem decodeClass0_eq_error :
    decodeClass0 w = .error e ↔ (fieldKk w).toNat ∉ [0xE0, 0xEE] ∧ e = .noInstruction w := by
  unfold decodeClass0
  split_ifs <;> simp_all [← BitVec.toNat_inj, eq_comm]

theorem decodeClass8_eq_error :
    decodeClass8 w = .error e ↔ (fieldN w).toNat ∈ [0x8, 0x9, 0xA, 0xB, 0xC, 0xD, 0xF] ∧ e = .noInstruction w := by
  unfold decodeClass8
  split
  case h_10 =>
    have hn : (fieldN w).toNat ∈ [0x8, 0x9, 0xA, 0xB, 0xC, 0xD, 0xF] := by
      simp only [imp_false] at *
      simp only [List.mem_cons, List.not_mem_nil, or_false]
      bv_omega
    simp only [hn, true_and, Except.error.injEq, eq_comm]
  all_goals simp [*]

theorem decodeClassE_eq_error :
    decodeClassE w = .error e ↔ (fieldKk w).toNat ∉ [0x9E, 0xA1] ∧ e = .noInstruction w := by
  unfold decodeClassE
  split_ifs <;> simp_all [← BitVec.toNat_inj, eq_comm]

theorem decodeClassF_eq_error :
    decodeClassF w = .error e ↔
      (fieldKk w).toNat ∉ [0x07, 0x15, 0x18, 0x1E, 0x29, 0x33, 0x55, 0x65] ∧ e = .noInstruction w := by
  unfold decodeClassF
  split_ifs <;> simp_all [← BitVec.toNat_inj, eq_comm]

/-- R78's list, by class. -/
def IllegalWord (w : Word) : Prop :=
  (opClass w = 0x0 ∧ (fieldKk w).toNat ∉ [0xE0, 0xEE]) ∨
  (opClass w = 0x8 ∧ (fieldN w).toNat ∈ [0x8, 0x9, 0xA, 0xB, 0xC, 0xD, 0xF]) ∨
  opClass w = 0xB ∨
  (opClass w = 0xE ∧ (fieldKk w).toNat ∉ [0x9E, 0xA1]) ∨
  (opClass w = 0xF ∧ (fieldKk w).toNat ∉ [0x07, 0x15, 0x18, 0x1E, 0x29, 0x33, 0x55, 0x65])

/-- Four classes reject by their second dispatch, class B rejects every word, and no other class rejects one. -/
theorem decode_eq_error : decode w = .error e ↔ IllegalWord w ∧ e = .noInstruction w := by
  unfold IllegalWord decode
  split
  case h_1 hc => simp [hc, decodeClass0_eq_error]
  case h_9 hc => simp [hc, decodeClass8_eq_error]
  case h_14 hc => simp [hc, decodeClassE_eq_error]
  case h_15 hc => simp [hc, decodeClassF_eq_error]
  -- the default row, which only class B reaches
  case h_16 =>
    have hB : opClass w = 0xB := by simp only [imp_false] at *; bv_omega
    simp [hB, eq_comm]
  all_goals
    next hc => simp [hc]

end

/-- Settles O4: the illegal words by their fields, the fields as numbers. -/
theorem illegalWordsExactly : Obligations.IllegalWordsExactly := by
  refine fun w => ⟨?_, fun e he => (decode_eq_error.1 he).2⟩
  have hill : (∃ e, decode w = .error e) ↔ IllegalWord w := by simp [decode_eq_error]
  rw [hill]
  simp only [IllegalWord, ← BitVec.toNat_inj, toNat_opClass, toNat_fieldKk, toNat_fieldN]
  rfl

/-- Settles O1: each word is evaluated. -/
theorem specWordsDecode : Obligations.SpecWordsDecode := by
  unfold Obligations.SpecWordsDecode
  decide

/-! ### What a step of an unfaulted core answers (R83, R208) -/

section
variable {s t : State} {f : Fault}

theorem checked_answers (base count : Nat) (w : Word) (s u : State) : ∃ t, checked base count w s u = .next t := by
  unfold checked
  split <;> exact ⟨_, rfl⟩

theorem execSkp_answers (x : Nibble) (s : State) : ∃ t, execSkp x s = .next t := by
  unfold execSkp
  split <;> exact ⟨_, rfl⟩

theorem execSknp_answers (x : Nibble) (s : State) : ∃ t, execSknp x s = .next t := by
  unfold execSknp
  split <;> exact ⟨_, rfl⟩

/-- Every instruction has its meaning, at each of its ends a next state. -/
theorem exec_answers (i : Instr) (s : State) : ∃ t, exec i s = .next t := by
  cases i with
  | ret =>
    by_cases h : s.sp = 0
    · exact ⟨_, execRet_of_empty h⟩
    · exact ⟨_, execRet_of_nonempty h⟩
  | call =>
    by_cases h : s.sp = 15
    · exact ⟨_, execCall_of_full h⟩
    · exact ⟨_, execCall_of_room h⟩
  | skp x => exact execSkp_answers x s
  | sknp x => exact execSknp_answers x s
  | drw | ldB | ldMemV | ldVMem => exact checked_answers ..
  | _ => exact ⟨_, rfl⟩

/-- Settles O8: at the fetch, at the decoder, and in every instruction. -/
theorem unfaultedStepCompletes : Obligations.UnfaultedStepCompletes := by
  intro s hs
  cases ha : s.fetchFault with
  | some a => exact ⟨_, step_of_fetchFault hs ha⟩
  | none =>
    cases hd : decode s.fetchWord with
    | error e => exact ⟨_, step_of_reject hs ha hd⟩
    | ok i => rw [step_of_decode hs ha hd]; exact exec_answers i s

/-- The error of a checked effect is that of its check. -/
theorem checked_fault {base count : Nat} {w : Word} {u : State} (h : checked base count w s u = .next t)
    (hu : u.fault = none) (hf : t.fault = some f) :
    0 < count ∧ s.params.memSize < base + count ∧ f = .memoryOutOfBounds s.pc (some w) (max base s.params.memSize) := by
  obtain ⟨a, ha, rfl⟩ | ⟨_, rfl⟩ := checked_cases h
  · obtain ⟨hcount, hout, rfl⟩ := outOfBounds_eq_some ha
    cases hf; exact ⟨hcount, hout, rfl⟩
  · rw [hu] at hf; cases hf

theorem execSkp_fault {x : Nibble} (h : execSkp x s = .next t) (hs : s.fault = none) (hf : t.fault = some f) :
    16 ≤ (s.getV x).toNat ∧ f = .keyIndexOutOfRange s.pc (encode (.skp x)) (s.getV x) := by
  obtain ⟨hk, rfl⟩ | ⟨k, _, ⟨_, rfl⟩ | ⟨_, rfl⟩⟩ := execSkp_cases h
  · cases hf; exact ⟨keyIndex_eq_none.1 hk, rfl⟩
  · exact absurd (hf.symm.trans hs) nofun
  · exact absurd (hf.symm.trans hs) nofun

theorem execSknp_fault {x : Nibble} (h : execSknp x s = .next t) (hs : s.fault = none) (hf : t.fault = some f) :
    16 ≤ (s.getV x).toNat ∧ f = .keyIndexOutOfRange s.pc (encode (.sknp x)) (s.getV x) := by
  obtain ⟨hk, rfl⟩ | ⟨k, _, ⟨_, rfl⟩ | ⟨_, rfl⟩⟩ := execSknp_cases h
  · cases hf; exact ⟨keyIndex_eq_none.1 hk, rfl⟩
  · split at hf <;> exact absurd (hf.symm.trans hs) nofun
  · exact absurd (hf.symm.trans hs) nofun

/-- The error an instruction can take, its own word recorded: no other instruction than the eight takes one. -/
theorem exec_fault_cases {i : Instr} (h : exec i s = .next t) (hs : s.fault = none) (hf : t.fault = some f) :
    (∃ z, i = .ret z ∧ s.sp = 0 ∧ f = .stackUnderflow s.pc (encode i)) ∨
    (∃ nnn, i = .call nnn ∧ s.sp = 15 ∧ f = .stackOverflow s.pc (encode i)) ∨
    (∃ x, (i = .skp x ∨ i = .sknp x) ∧ 16 ≤ (s.getV x).toNat ∧ f = .keyIndexOutOfRange s.pc (encode i) (s.getV x)) ∨
    (∃ x y n, i = .drw x y n ∧ s.params.memSize < s.i.toNat + n.toNat ∧
      f = .memoryOutOfBounds s.pc (some (encode i)) (max s.i.toNat s.params.memSize)) ∨
    (∃ x, i = .ldB x ∧ s.params.memSize ≤ s.i.toNat + 2 ∧
      f = .memoryOutOfBounds s.pc (some (encode i)) (max s.i.toNat s.params.memSize)) ∨
    (∃ x, (i = .ldMemV x ∨ i = .ldVMem x) ∧ s.params.memSize ≤ s.i.toNat + x.toNat ∧
      f = .memoryOutOfBounds s.pc (some (encode i)) (max s.i.toNat s.params.memSize)) := by
  cases i with
  | ret z =>
    obtain ⟨hsp, rfl⟩ | ⟨_, rfl⟩ := execRet_cases h
    · cases hf; exact .inl ⟨z, rfl, hsp, rfl⟩
    · exact absurd (hf.symm.trans hs) nofun
  | call nnn =>
    obtain ⟨hsp, rfl⟩ | ⟨_, rfl⟩ := execCall_cases h
    · cases hf; exact .inr (.inl ⟨nnn, rfl, hsp, rfl⟩)
    · exact absurd (hf.symm.trans hs) nofun
  | skp x => exact .inr (.inr (.inl ⟨x, .inl rfl, execSkp_fault h hs hf⟩))
  | sknp x => exact .inr (.inr (.inl ⟨x, .inr rfl, execSknp_fault h hs hf⟩))
  | drw x y n =>
    have ⟨_, hout, he⟩ := checked_fault h hs hf
    exact .inr (.inr (.inr (.inl ⟨x, y, n, rfl, hout, he⟩)))
  | ldB x =>
    have ⟨_, hout, he⟩ := checked_fault h hs hf
    exact .inr (.inr (.inr (.inr (.inl ⟨x, rfl, Nat.le_of_lt_succ hout, he⟩))))
  | ldMemV x =>
    have ⟨_, hout, he⟩ := checked_fault h hs hf
    exact .inr (.inr (.inr (.inr (.inr ⟨x, .inl rfl, Nat.le_of_lt_succ hout, he⟩))))
  | ldVMem x =>
    have ⟨_, hout, he⟩ := checked_fault h hs hf
    exact .inr (.inr (.inr (.inr (.inr ⟨x, .inr rfl, Nat.le_of_lt_succ hout, he⟩))))
  | _ => cases h; exact absurd (hf.symm.trans hs) nofun

/-- Settles O10: the fetch's error, the decoder's, or the instruction's, whose word is the word fetched. -/
theorem fatalErrorCauses : Obligations.FatalErrorCauses := by
  intro s t f hs h hf
  have hin : s.fetchFault = none → s.pc.toNat + 1 < s.params.memSize := (fetchFault_eq_none s).1
  obtain ⟨_, ⟨a, ha, rfl⟩ | ⟨ha, he, rfl⟩ | ⟨ha, i, hd, hi⟩⟩ := step_cases h
  · obtain ⟨_, hout, rfl⟩ := outOfBounds_eq_some ha
    cases hf; exact .inl ⟨Nat.le_of_lt_succ hout, rfl⟩
  · cases hf; exact .inr (.inl ⟨hin ha, he, rfl⟩)
  · rw [← encodeOfDecode _ i hd]
    exact .inr (.inr ⟨hin ha, i, decodeOfEncode i, exec_fault_cases hi hs hf⟩)

end

/-! ### The instruction cycle (R83 to R87) -/

section
variable {s : State}

theorem State.afterStep_of_next {t : State} (h : step s = .next t) : s.afterStep = t := by
  rw [State.afterStep, h]

/-- Settles O5: the fetch, the decoder and the instruction, in this order of priority. -/
theorem stepRunsDecodedInstruction : Obligations.StepRunsDecodedInstruction := by
  refine fun s => ⟨fun f => step_of_faulted, fun hs hout => ?_, fun hs hin w hw => ?_, fun t ht => ?_⟩
  · have hmax : max s.pc.toNat s.params.memSize = if s.params.memSize ≤ s.pc.toNat then s.pc.toNat else s.pc.toNat + 1 := by
      split <;> omega
    rw [← hmax]
    exact step_of_fetchFault hs (fetchFault_of_outside hout)
  · subst hw
    have hfetch := (fetchFault_eq_none s).2 hin
    exact ⟨fun i => step_of_decode hs hfetch, fun e => step_of_reject hs hfetch⟩
  · show s.afterStep.report = _
    rw [State.afterStep_of_next ht]; rfl

/-- A taken skip ends two words on, without an error. -/
theorem exec_of_skipTaken {i : Instr} (h : i.skipTaken s) : ∃ t, exec i s = .next t ∧ t.pc = s.pc + 4 ∧ t.fault = s.fault := by
  cases i with
  | seImm x kk | sneImm x kk | seReg x y z | sneReg x y z =>
    rw [Instr.skipTaken] at h
    exact ⟨_, rfl, by simp [h], rfl⟩
  | skp x =>
    obtain ⟨k, hk, hd⟩ := h
    exact ⟨_, execSkp_of_pressed hk hd, rfl, rfl⟩
  | sknp x =>
    obtain ⟨k, hk, hd⟩ := h
    exact ⟨_, execSknp_of_released hk hd, rfl, rfl⟩
  | _ => exact h.elim

/-- A skip's condition reads no memory. -/
theorem skipTaken_storeBytes (i : Instr) (s : State) (a : Nat) (bs : List Byte) :
    i.skipTaken (s.storeBytes a bs) ↔ i.skipTaken s := by
  cases i <;> exact Iff.rfl

/-- A store above the fetched word leaves it. -/
theorem State.fetchWord_storeBytes_above (s : State) {a : Nat} (bs : List Byte) (h : s.pc.toNat + 2 ≤ a) :
    (s.storeBytes a bs).fetchWord = s.fetchWord :=
  congrArg₂ wordOfBytes (s.readByte_storeBytes_outside (.inl (by simp; omega)))
    (s.readByte_storeBytes_outside (.inl (by simp; omega)))

/-- Settles O18: the store leaves the fetched skip and its condition, and the skip reads nothing past them. -/
theorem skippedWordIsNotDecoded : Obligations.SkippedWordIsNotDecoded := by
  intro s i b0 b1 hs hin hd htaken
  have hstep : step (s.storeBytes (s.pc.toNat + 2) [b0, b1]) = exec i (s.storeBytes (s.pc.toNat + 2) [b0, b1]) :=
    step_of_decode hs ((fetchFault_eq_none _).2 hin) (by rw [s.fetchWord_storeBytes_above _ le_rfl, hd])
  obtain ⟨t, ht, hpc, hf⟩ := exec_of_skipTaken ((skipTaken_storeBytes i s (s.pc.toNat + 2) [b0, b1]).2 htaken)
  exact ⟨t, hstep.trans ht, hpc, hf.trans hs⟩

/-- The first two bytes of an image are the word at the pc of the loaded state (R240, R242). -/
theorem State.fetchWord_loaded (s : State) (hi lo : Byte) (rest : List Byte) :
    (s.loaded (hi :: lo :: rest)).fetchWord = hi ++ lo :=
  congrArg₂ wordOfBytes ((State.resetWith s.params).readByte_storeBytes_at (j := 0) rfl)
    ((State.resetWith s.params).readByte_storeBytes_at (j := 1) rfl)

/-- Settles O45: the image fits, and the word fetched from the loaded state is its first. -/
theorem firstStepRunsFirstWord : Obligations.FirstStepRunsFirstWord := by
  intro s hi lo rest i hfits hd
  rw [initCore_of_fits (by simp only [List.length_cons]; omega)]
  refine step_of_decode rfl ((fetchFault_eq_none _).2 ?_) (by rw [State.fetchWord_loaded, hd])
  show s.params.programBase.toNat + 1 < s.params.memSize
  omega

end

/-! ### The arithmetic of class 8 (R123 to R130) -/

/-- A row of class 8 is fixed by its low nibble: a word with it is the word of the row's instruction. -/
theorem decodesAs_class8 {n : Nibble} {made : Word → Instr} (h : ∀ w, encode (made w) = formXYN 0x8 (fieldX w) (fieldY w) n) :
    DecodesAs 0xF00F (formXYN 0x8 0 0 n) made := by
  intro w hw
  have hword : encode (made w) = w :=
    (h w).trans (formXYN_of (opClass_of_mask hw rfl (opClass_formXYN ..)) (fieldN_of_mask hw rfl (fieldN_formXYN ..)))
  calc decode w = decode (encode (made w)) := by rw [hword]
    _ = .ok (made w) := decodeOfEncode _

section
variable (s : State) (x : Nibble) (b f : Byte)

/-- What a result written to Vx leaves: the pc goes on, and no other register and no other part is written. -/
theorem setV_advance_rest : (s.setV x b).advance.pc = s.pc + 2 ∧
    (∀ r, r ≠ x → (s.setV x b).advance.getV r = s.getV r) ∧ UnchangedBut [.regs, .pc] s (s.setV x b).advance :=
  ⟨rfl, fun _ hr => s.getV_setV_other hr b, (unchangedBut_v s _).advance⟩

/-- The same of a result and its flag. -/
theorem setVThenFlag_advance_rest : (s.setVThenFlag x b f).advance.pc = s.pc + 2 ∧
    (∀ r, r ≠ x → r ≠ vf → (s.setVThenFlag x b f).advance.getV r = s.getV r) ∧
    UnchangedBut [.regs, .pc] s (s.setVThenFlag x b f).advance :=
  ⟨rfl, fun _ hr hf => getV_setVThenFlag_of_ne hr hf b f, (unchangedBut_v s _).advance⟩

/-- The result stays in a destination other than VF (D12). -/
theorem getV_setVThenFlag_dest {s : State} {x : Nibble} (hx : x ≠ vf) : (s.setVThenFlag x b f).getV x = b := by
  rw [State.getV_setVThenFlag_other s hx, if_pos rfl]

end

theorem flagByte_decide (p : Prop) [Decidable p] : flagByte (decide p) = if p then 1 else 0 := by
  simp [flagByte]

theorem flagByte_zero_or_one (c : Bool) : flagByte c = 0 ∨ flagByte c = 1 := by
  cases c
  · exact .inl rfl
  · exact .inr rfl

/-- Settles O20: each result bit by bit. -/
theorem logicWritesNoFlag : Obligations.LogicWritesNoFlag := by
  refine ⟨decodesAs_class8 (n := 1) fun _ => rfl,
    decodesAs_class8 (n := 2) fun _ => rfl,
    decodesAs_class8 (n := 3) fun _ => rfl, fun x y s => ⟨?_, ?_, ?_⟩⟩
  all_goals exact ⟨_, rfl, fun k => by simp, setV_advance_rest ..⟩

/-- Settles O21: the result in a destination other than VF, and the flag in VF. -/
theorem addRegisterCarry : Obligations.AddRegisterCarry := by
  refine ⟨decodesAs_class8 (n := 4) fun _ => rfl, fun x y s =>
    ⟨_, rfl, fun hx => ?_, ?_, setVThenFlag_advance_rest ..⟩⟩
  · rw [State.advance_getV, getV_setVThenFlag_dest _ _ hx, BitVec.toNat_add]
  · rw [State.advance_getV, State.getV_setVThenFlag_vf, addFlag, flagByte_decide]

/-- Settles O22: as 8xy4, the two operands exchanged between the two instructions. -/
theorem subtractStrictFlag : Obligations.SubtractStrictFlag := by
  refine ⟨decodesAs_class8 (n := 5) fun _ => rfl,
    decodesAs_class8 (n := 7) fun _ => rfl, fun x y s =>
    ⟨⟨_, rfl, fun hx => ?_, ?_, setVThenFlag_advance_rest ..⟩, ⟨_, rfl, fun hx => ?_, ?_, setVThenFlag_advance_rest ..⟩⟩⟩
  · rw [State.advance_getV, getV_setVThenFlag_dest _ _ hx, toNat_byte_sub]
  · rw [State.advance_getV, State.getV_setVThenFlag_vf, subFlag, flagByte_decide]
  · rw [State.advance_getV, getV_setVThenFlag_dest _ _ hx, toNat_byte_sub]
  · rw [State.advance_getV, State.getV_setVThenFlag_vf, subFlag, flagByte_decide]

/-- Settles O23: the bit shifted out, and under another mask what the flag is fixed to. -/
theorem shiftsTakeOldBit : Obligations.ShiftsTakeOldBit := by
  refine ⟨decodesAs_class8 (n := 6) fun _ => rfl,
    decodesAs_class8 (n := 0xE) fun _ => rfl, fun x y s =>
    ⟨⟨_, rfl, fun hx => ?_, ?_, setVThenFlag_advance_rest ..⟩,
      ⟨_, rfl, fun hx => ?_, ?_⟩⟩⟩
  · rw [State.advance_getV, getV_setVThenFlag_dest _ _ hx]; simp [Nat.shiftRight_eq_div_pow]
  · rw [State.advance_getV, State.getV_setVThenFlag_vf, toNat_flagByte, toNat_shrFlag]
  · rw [State.advance_getV, getV_setVThenFlag_dest _ _ hx]; simp [Nat.shiftLeft_eq]
  · rw [State.advance_getV, State.getV_setVThenFlag_vf]
    refine ⟨fun hm => ?_, fun hnone => ?_, fun h0 hall => ?_, flagByte_zero_or_one _, setVThenFlag_advance_rest ..⟩
    · rw [hm, toNat_flagByte, toNat_shlFlag_0x80]
    · rw [shlFlag_of_none hnone]; rfl
    · rw [shlFlag_of_all hall h0]; rfl

end Sys2Proof.Machine

/-! PROOFS. Control flow: return, jump, call and the register skips, and the normal end of a run. -/

namespace Sys2Proof.Machine

/-! ### The words of the control-flow instructions (R74, R75, R79) -/

theorem decode_of_encode {w : Word} {i : Instr} (h : encode i = w) : decode w = .ok i := h ▸ decodeOfEncode i

/-- A class whose other twelve bits are all operands decodes by its top four bits alone. -/
theorem decodesAs_class {c : Nibble} {made : Word → Instr} (h : ∀ w, opClass w = c → encode (made w) = w) :
    DecodesAs 0xF000 (formNNN c 0) made := fun w hw =>
  decode_of_encode (h w (opClass_of_mask hw rfl (opClass_formNNN ..)))

theorem decodesAs_ret : DecodesAs 0xF0FF 0x00EE (fun w => .ret (fieldX w)) := fun _ hw =>
  decode_of_encode (formXKK_of (opClass_of_mask hw rfl rfl) (fieldKk_of_mask hw rfl rfl))

/-! ### The call stack (R27, R28) -/

section
variable {s : State}

/-- Below 15, SP goes up without wrapping (R102). -/
theorem State.sp_val_push (hsp : s.sp ≠ 15) (a : Word) : (s.push a).sp.val = s.sp.val + 1 :=
  Fin.val_add_one_of_lt (Fin.lt_last_iff_ne_last.2 hsp)

/-- Above 0, SP goes down without wrapping (R100). -/
theorem State.sp_val_pop (hsp : s.sp ≠ 0) : s.pop.sp.val + 1 = s.sp.val := by
  have hpos : s.sp.val ≠ 0 := Fin.val_ne_zero_iff.2 hsp
  have hpop : s.pop.sp.val = s.sp.val - 1 := Fin.val_sub_one_of_ne_zero hsp
  omega

/-- A push writes the entry above SP and no other. -/
theorem State.stack_push (hsp : s.sp ≠ 15) (a : Word) (j : Fin 16) :
    (s.push a).stack[j] = if j.val = s.sp.val + 1 then a else s.stack[j] := by
  simp only [← State.sp_val_push hsp a, State.push_stack, State.push_sp, Fin.getElem_fin, Vector.getElem_set, eq_comm]

theorem State.top_push (s : State) (a : Word) : (s.push a).top = a := by simp [State.top]

theorem State.sp_pop_push (s : State) (a : Word) : (s.push a).pop.sp = s.sp := by simp

/-- A part of a frame that is back at its value leaves the frame. -/
theorem UnchangedBut.restored {p : Part} {ps : List Part} {t : State} (h : UnchangedBut (p :: ps) s t) (hp : p.same s t) :
    UnchangedBut ps s t := fun q hq => by
  by_cases hqp : q = p
  · exact hqp ▸ hp
  · exact h q (by simp [hqp, hq])

theorem unchangedBut_ret (s : State) : UnchangedBut [.pc, .sp] s { s.pop with pc := s.top } :=
  ((unchangedBut_pop s).trans (unchangedBut_pc _ _)).mono (by simp)

theorem unchangedBut_call (s : State) (a b : Word) : UnchangedBut [.pc, .sp, .stack] s { s.push a with pc := b } :=
  ((unchangedBut_push s a).trans (unchangedBut_pc _ _)).mono (by simp)

end

/-- Settles O15: the pop reads the entry just pushed, and puts SP back. -/
theorem callThenReturn : Obligations.CallThenReturn := by
  intro nnn z s hsp
  have hcalled : (s.push (s.pc + 2)).sp ≠ 0 := by
    rw [← Fin.val_ne_zero_iff, State.sp_val_push hsp]; exact Nat.succ_ne_zero _
  refine ⟨_, _, execCall_of_room hsp, execRet_of_nonempty hcalled, s.top_push _, fun j hj => ?_, ?_⟩
  · exact (State.stack_push hsp _ j).trans (if_neg hj)
  · have hboth : UnchangedBut [.sp, .pc, .stack] s _ :=
      ((unchangedBut_call s (s.pc + 2) (zextAddr nnn)).trans (unchangedBut_ret _)).mono (by simp)
    exact hboth.restored (s.sp_pop_push (s.pc + 2))

/-! ### The normal end of a run (R101, R226) -/

section
variable {s : State}

theorem execJp_self {nnn : Addr12} (h : s.pc.toNat = nnn.toNat) : execJp nnn s = .next s := by
  have hpc : zextAddr nnn = s.pc := BitVec.eq_of_toNat_eq ((toNat_zextAddr nnn).trans h.symm)
  rw [execJp, hpc]

theorem step_of_normalEnd (h : s.normalEnd) : step s = .next s := by
  obtain ⟨hs, hfetch, nnn, hd, hpc⟩ := h
  exact (step_of_decode hs hfetch hd).trans (execJp_self hpc.symm)

/-- An action that leaves a state leaves it any number of times. -/
theorem hostRun_replicate_of_apply_eq {a : HostAction} (h : a.apply s = s) (n : Nat) :
    hostRun s (List.replicate n a) = s := by
  induction n with
  | zero => rfl
  | succ n ih => rw [List.replicate_succ, hostRun, h, ih]

end

/-- Settles O56: the step is that of a jump to its own address, which leaves the state. -/
theorem normalEndIsStable : Obligations.NormalEndIsStable := fun _ n hend =>
  have hstep := step_of_normalEnd hend
  ⟨hstep, hostRun_replicate_of_apply_eq (a := .step) (State.afterStep_of_next hstep) n⟩

/-! ### Return, jump and call (R100 to R102) -/

/-- Settles O12: the two ends of 00EE, by SP. -/
theorem retPopsReturnAddress : Obligations.RetPopsReturnAddress :=
  ⟨decodesAs_ret, fun _ s => ⟨execRet_of_empty, fun hsp =>
    ⟨_, execRet_of_nonempty hsp, rfl, State.sp_val_pop hsp, unchangedBut_ret s⟩⟩⟩

/-- Settles O13: a jump to its own address writes the pc it has, and of a word at 0xFFF the second byte lies at 0x1000. -/
theorem jumpSetsPc : Obligations.JumpSetsPc := by
  refine ⟨decodesAs_class (c := 1) fun _ => formNNN_of, fun nnn s =>
    ⟨_, rfl, toNat_zextAddr nnn, unchangedBut_pc s _, fun hpc => ?_, fun hnnn hs hsize => ?_⟩⟩
  · exact Host.Outcome.next.inj (execJp_self hpc)
  · subst hnnn
    refine step_of_fetchFault hs ((fetchFault_of_outside ?_).trans ?_)
    · show s.params.memSize ≤ 0x1000
      omega
    · show some (max 0xFFF s.params.memSize) = some 0x1000
      rw [hsize]; rfl

/-- Settles O14: the two ends of 2nnn, by SP. -/
theorem callPushesReturnAddress : Obligations.CallPushesReturnAddress :=
  ⟨decodesAs_class (c := 2) fun _ => formNNN_of, fun nnn s => ⟨execCall_of_full, fun hsp =>
    ⟨_, execCall_of_room hsp, toNat_zextAddr nnn, State.sp_val_push hsp (s.pc + 2), State.stack_push hsp _,
      unchangedBut_call s _ _⟩⟩⟩

/-! ### The register skips (R103 to R106) -/

section
variable (s : State) {c : Bool} {P : Prop} [Decidable P]

/-- A skip on `P`, and a skip on its failure: the pc, and nothing else. -/
theorem skipIf_of_iff (h : c = true ↔ P) :
    (s.skipIf c).pc = s.pc + (if P then 4 else 2) ∧ UnchangedBut [.pc] s (s.skipIf c) :=
  ⟨by simp [h], unchangedBut_skipIf s c⟩

theorem skipIf_of_iff_not (h : c = true ↔ ¬ P) :
    (s.skipIf c).pc = s.pc + (if P then 2 else 4) ∧ UnchangedBut [.pc] s (s.skipIf c) :=
  ⟨by simp [h], unchangedBut_skipIf s c⟩

/-- Bytes compare as unsigned numbers, and a register equals itself. -/
theorem State.getV_eq_iff (x y : Nibble) : s.getV x = s.getV y ↔ x = y ∨ (s.getV x).toNat = (s.getV y).toNat := by
  rw [BitVec.toNat_inj]
  exact ⟨.inr, fun h => h.elim (congrArg s.getV) id⟩

end

/-- Settles O16: the comparison of bytes is that of their numbers. -/
theorem skipOnImmediate : Obligations.SkipOnImmediate := by
  refine ⟨decodesAs_class (c := 3) fun _ hc => formXKK_of hc rfl, decodesAs_class (c := 4) fun _ hc => formXKK_of hc rfl,
    fun x kk s => ?_⟩
  have hcmp : (s.getV x).toNat = kk.toNat ↔ s.getV x = kk := BitVec.toNat_inj
  exact ⟨⟨_, rfl, skipIf_of_iff s (by rw [hcmp, beq_iff_eq])⟩,
    ⟨_, rfl, skipIf_of_iff_not s (by rw [hcmp, bne_iff_ne])⟩⟩

/-- Settles O17: as O16, between two registers. -/
theorem skipOnRegister : Obligations.SkipOnRegister := by
  refine ⟨decodesAs_class (c := 5) fun _ hc => formXYN_of hc rfl, decodesAs_class (c := 9) fun _ hc => formXYN_of hc rfl,
    fun x y _ s => ?_⟩
  have hcmp := s.getV_eq_iff x y
  exact ⟨⟨_, rfl, skipIf_of_iff s (by rw [← hcmp, beq_iff_eq])⟩,
    ⟨_, rfl, skipIf_of_iff_not s (by rw [← hcmp, bne_iff_ne])⟩⟩

end Sys2Proof.Machine

/-! PROOFS. Loads, the addition of an immediate byte, and the random byte. -/

namespace Sys2Proof.Machine

/-! ### Results written to Vx alone (R120 to R122, R131) -/

/-- Settles O19: each result is in Vx, and the rest is what any write to Vx leaves. -/
theorem loadsAndAddImmediate : Obligations.LoadsAndAddImmediate := by
  refine ⟨decodesAs_class (c := 6) fun _ hc => formXKK_of hc rfl, decodesAs_class (c := 7) fun _ hc => formXKK_of hc rfl,
    decodesAs_class8 (n := 0) fun _ => rfl, fun x y kk s => ?_⟩
  have hsum : ((s.setV x (s.getV x + kk)).advance.getV x).toNat = ((s.getV x).toNat + kk.toNat) % 256 := by
    rw [State.advance_getV, State.getV_setV_same, BitVec.toNat_add]
  exact ⟨⟨_, rfl, s.getV_setV_same x kk, setV_advance_rest ..⟩, ⟨_, rfl, hsum, setV_advance_rest ..⟩,
    ⟨_, rfl, s.getV_setV_same x (s.getV y), setV_advance_rest ..⟩⟩

/-- Settles O24: the mask 0 clears every bit of the draw and 0xFF keeps every one. The draw counter, which the draw moves
on, is none of the spec's parts, so the frame is that of the write to Vx (log entry 3). -/
theorem randomByteIsMasked : Obligations.RandomByteIsMasked := by
  refine ⟨decodesAs_class (c := 0xC) fun _ hc => formXKK_of hc rfl, fun x kk s => ?_⟩
  have hx : (s.afterDraw.setV x (s.drawByte &&& kk)).advance.getV x = s.drawByte &&& kk := State.getV_setV_same ..
  obtain ⟨hpc, hother, hframe⟩ := setV_advance_rest s.afterDraw x (s.drawByte &&& kk)
  refine ⟨_, rfl, hx, fun h0 => ?_, fun hall => ?_, Nat.succ_ne_self s.draws, hpc, hother,
    (unchangedBut_draws s _).trans hframe⟩
  · rw [hx, h0]; exact BitVec.and_zero
  · rw [hx, hall]; exact BitVec.and_allOnes

end Sys2Proof.Machine

/-! PROOFS. The address register: Annn, Fx29 and Fx1E. -/

namespace Sys2Proof.Machine

/-- What a value written to I leaves: the pc goes on, and no other part is written. -/
theorem setI_advance_rest (s : State) (a : Word) : ({ s with i := a } : State).advance.pc = s.pc + 2 ∧
    UnchangedBut [.i, .pc] s ({ s with i := a } : State).advance :=
  ⟨rfl, (unchangedBut_i s a).advance⟩

/-- Digit A's glyph is the eleventh of five bytes (R142). -/
theorem glyphAddr_of_A {b : Byte} (h : b.toNat = 0xA) : glyphAddr b = 0x032 :=
  BitVec.eq_of_toNat_eq (by rw [toNat_glyphAddr, h]; rfl)

/-- In memory as reset leaves it glyph A stands at 0x032, whatever the font (R36). -/
theorem State.readBytes_glyphA {s : State} (hmem : s.mem = State.reset.mem) :
    s.readBytes 0x032 5 = [0xF0, 0x90, 0xF0, 0x90, 0x90] := by
  rw [State.readBytes, hmem]; exact Memory.readBytes_glyphA

/-- Settles O25: I's new value is the zero-extended address or the glyph's address, and digit A's is where every font has its
glyph A. -/
theorem loadIndexAndGlyph : Obligations.LoadIndexAndGlyph := by
  refine ⟨decodesAs_class (c := 0xA) fun _ => formNNN_of,
    decodesAs_classF (kk := 0x29) fun w hk => by simp [decodeClassF, hk],
    fun nnn s => ⟨_, rfl, toNat_zextAddr nnn, setI_advance_rest ..⟩, fun x s => ?_⟩
  obtain ⟨hpc, hframe⟩ := setI_advance_rest s (glyphAddr (s.getV x))
  refine ⟨_, rfl, toNat_glyphAddr _, hpc, hframe, fun hA hmem => ?_⟩
  have hi : ({ s with i := glyphAddr (s.getV x) } : State).advance.i = 0x032 := glyphAddr_of_A hA
  exact ⟨hi, by rw [hi]; exact State.readBytes_glyphA hmem⟩

/-- Settles O26: the sum of two words is the sum of their numbers modulo 2^16, and Vx is zero-extended (D9). -/
theorem addToIndexWraps : Obligations.AddToIndexWraps := by
  refine ⟨decodesAs_classF (kk := 0x1E) fun w hk => by simp [decodeClassF, hk],
    fun x s => ⟨_, rfl, ?_, setI_advance_rest ..⟩⟩
  calc (s.i + zextByte (s.getV x)).toNat = (s.i.toNat + (zextByte (s.getV x)).toNat) % 65536 := BitVec.toNat_add ..
    _ = (s.i.toNat + (s.getV x).toNat) % 65536 := by rw [toNat_zextByte]

end Sys2Proof.Machine

/-! PROOFS. The framebuffer controller: 00E0, and a sprite drawn twice. -/

namespace Sys2Proof.Machine

theorem decodesAs_cls : DecodesAs 0xF0FF 0x00E0 (fun w => .cls (fieldX w)) := fun _ hw =>
  decode_of_encode (formXKK_of (opClass_of_mask hw rfl rfl) (fieldKk_of_mask hw rfl rfl))

/-- Settles O32: every pixel of the dark framebuffer is 0, and the rest is what a write to the display leaves. -/
theorem clearDisplay : Obligations.ClearDisplay :=
  ⟨decodesAs_cls, fun _ s => ⟨_, rfl, Framebuffer.get_dark, rfl, rfl, (unchangedBut_display s _ _).advance⟩⟩

/-! ### A sprite drawn twice (R162) -/

/-- What a sprite covers depends on its coordinates, I and memory only: a draw that leaves these does not move it. -/
theorem State.spriteCovers_congr {s t : State} {x y : Nibble} (hx : t.getV x = s.getV x) (hy : t.getV y = s.getV y)
    (hi : t.i = s.i) (hmem : ∀ a, t.readByte a = s.readByte a) (n : Nibble) (px : Fin 64) (py : Fin 32) :
    t.spriteCovers x y n px py ↔ s.spriteCovers x y n px py := by
  simp only [State.spriteCovers, hx, hy, hi, hmem]

/-- Wherever a sprite stands it covers some pixel exactly if it has a set bit: bit c is column 7 - c (R164), and the wrap
keeps every column and row on the screen. -/
theorem State.exists_spriteCovers_iff (s : State) (x y n : Nibble) : (∃ px py, s.spriteCovers x y n px py) ↔
    ∃ r c, r < n.toNat ∧ c < 8 ∧ (s.readByte (s.i.toNat + r)).getLsbD c = true := by
  constructor
  · rintro ⟨px, py, r, c, hr, -, hbit, -, -⟩
    exact ⟨r, 7 - c, hr, by omega, (spriteBit_iff _ c).2 hbit⟩
  · rintro ⟨r, c, hr, hc, hbit⟩
    have hcol : 7 - (7 - c) = c := by omega
    have hset : spriteBit (s.readByte (s.i.toNat + r)) (7 - c) = true := by rw [spriteBit, hcol]; exact hbit
    exact ⟨wrapColumn (s.getV x) (7 - c), wrapRow (s.getV y) r, r, 7 - c, hr, by omega, (spriteBit_iff _ _).1 hset,
      eq_wrapColumn_iff.1 rfl, eq_wrapRow_iff.1 rfl⟩

/-- A pixel that two draws both toggle, or both leave, is as before both. -/
theorem eq_of_toggled_alike {a b c : Bool} (h : c ≠ b ↔ b ≠ a) : c = a := by
  revert h; cases a <;> cases b <;> cases c <;> decide

/-- Settles O35: neither coordinate is VF, so both draws cover the same pixels. Each is toggled twice; from a dark screen the
first draw lights them, so the second collides if there is one. -/
theorem drawTwiceRestores : Obligations.DrawTwiceRestores := by
  intro x y n s hx hy hin
  obtain ⟨t, ht, htoggle, -, -, -, -, hregs, hframe⟩ := (drawTogglesSpritePixels.2 x y n s).1 (.inr hin)
  have hi : t.i = s.i := hframe .i (by decide)
  have hsize : t.params = s.params := hframe .params (by decide)
  obtain ⟨u, hu, hutoggle, hset, hclear, -⟩ := (drawTogglesSpritePixels.2 x y n t).1 (.inr (by rwa [hi, hsize]))
  have hcov : ∀ px py, t.spriteCovers x y n px py ↔ s.spriteCovers x y n px py :=
    State.spriteCovers_congr (hregs x hx) (hregs y hy) hi (hframe .mem (by decide)) n
  refine ⟨t, u, ht, hu, fun px py => ?_, fun hdark => ?_⟩
  · exact eq_of_toggled_alike ((hutoggle px py).trans ((hcov px py).trans (htoggle px py).symm))
  · have hlit : ∀ px py, s.spriteCovers x y n px py → t.pixel px py = true := fun px py hc =>
      Bool.ne_false_iff.1 (hdark px py ▸ (htoggle px py).2 hc)
    rw [← s.exists_spriteCovers_iff x y n]
    constructor
    · intro hone
      by_contra hnone
      have hzero : u.getV vf = 0 := hclear fun px py hc => absurd ⟨px, py, (hcov px py).1 hc⟩ hnone
      exact absurd (hzero.symm.trans hone) (by decide)
    · rintro ⟨px, py, hc⟩
      exact hset ⟨px, py, (hcov px py).2 hc, hlit px py hc⟩

end Sys2Proof.Machine

/-! PROOFS. The key skip Ex9E with its read-and-clear, and the timer moves. -/

namespace Sys2Proof.Machine

/-! ### Ex9E (R180) -/

theorem decodesAs_skp : DecodesAs 0xF0FF 0xE09E (fun w => .skp (fieldX w)) := fun _ hw =>
  decode_of_encode (formXKK_of (opClass_of_mask hw rfl rfl) (fieldKk_of_mask hw rfl rfl))

section
variable (s : State) (k : Fin 16) (b : Bool)

@[simp] theorem State.keyDown_setSlot_same : (s.setSlot k b).keyDown k = b :=
  (s.keyDown_setSlot k k b).trans (if_pos rfl)

theorem State.keyDown_setSlot_other {k j : Fin 16} (hj : j ≠ k) : (s.setSlot k b).keyDown j = s.keyDown j :=
  (s.keyDown_setSlot k j b).trans (if_neg hj)

end

/-- Settles O38: the first skip finds the key pressed and releases it, so the second finds it released. -/
theorem pressIsObservedOnce : Obligations.PressIsObservedOnce := by
  intro x s k hk
  have hpressed : (s.setKey k true).keyDown k = true := s.keyDown_setSlot_same k true
  have hreleased : (((s.setKey k true).setSlot k false).skipIf true).keyDown k = false :=
    State.keyDown_setSlot_same _ k false
  exact ⟨_, _, execSkp_of_pressed hk hpressed, rfl, congrArg HostReply.key hreleased, execSkp_of_released hk hreleased, rfl⟩

/-- Settles O36: a pressed key is released and skips, a released one stays so, and no key is the error. -/
theorem skipIfPressedConsumes : Obligations.SkipIfPressedConsumes := by
  refine ⟨decodesAs_skp, fun x s => ⟨fun k hk => ?_, execSkp_of_noKey⟩⟩
  cases hd : s.keyDown k with
  | false =>
    exact ⟨_, execSkp_of_released hk hd, rfl, hd, fun _ _ => rfl, (unchangedBut_skipIf s false).mono (by simp)⟩
  | true =>
    exact ⟨_, execSkp_of_pressed hk hd, rfl, s.keyDown_setSlot_same k false, fun _ hj => s.keyDown_setSlot_other false hj,
      ((unchangedBut_setSlot s k false).trans (unchangedBut_skipIf _ true)).mono (by simp)⟩

/-! ### The timer moves (R182 to R184) -/

/-- Settles O39: Fx07 is a write to Vx, Fx15 and Fx18 one to a timer; the three low bytes are D11's. -/
theorem timerMoves : Obligations.TimerMoves := by
  refine ⟨decodesAs_classF (kk := 0x07) fun w hk => by simp [decodeClassF, hk],
    decodesAs_classF (kk := 0x15) fun w hk => by simp [decodeClassF, hk],
    decodesAs_classF (kk := 0x18) fun w hk => by simp [decodeClassF, hk], fun x s => ⟨?_, ?_, ?_⟩⟩
  · exact ⟨_, rfl, s.getV_setV_same x s.dt, setV_advance_rest ..⟩
  · exact ⟨_, rfl, rfl, rfl, (unchangedBut_dt s (s.getV x)).advance⟩
  · exact ⟨_, rfl, rfl, rfl, (unchangedBut_st s (s.getV x)).advance⟩

end Sys2Proof.Machine

/-! PROOFS. The fatal errors: that one is precise and final, that `initialize` refuses an image, and what the host observes. -/

namespace Sys2Proof.Machine

/-! ### A fatal error (R201) -/

section
variable {s t : State} {f : Fault}

theorem State.recordFault_of_fault_eq {g : Fault} (h : (s.recordFault g).fault = some f) :
    s.recordFault g = s.recordFault f := by
  cases h; rfl

/-- An instruction that takes an error writes nothing else: one that completes does not write the fault record. -/
theorem exec_eq_recordFault {i : Instr} (h : exec i s = .next t) (hs : s.fault = none) (hf : t.fault = some f) :
    t = s.recordFault f := by
  obtain ⟨g, rfl⟩ | hc := exec_cases h
  · exact State.recordFault_of_fault_eq hf
  · have hkept : t.fault = s.fault := hc.frame .fault i.fault_not_mem_mayWrite
    exact absurd (hf.symm.trans (hkept.trans hs)) nofun

theorem State.afterStep_of_fault (h : step s = .fault f) : s.afterStep = s := by
  rw [State.afterStep, h]

theorem State.report_of_faulted (h : s.fault = some f) : s.report = .error f := by
  rw [State.report, h]

theorem tick_of_faulted (h : s.fault = some f) : s.tick = s :=
  if_neg (by rw [h]; nofun)

end

/-- Settles O9: the fetch's and the decoder's error by what they record, and an instruction's by `exec_cases`. -/
theorem fatalErrorIsPrecise : Obligations.FatalErrorIsPrecise := by
  intro s t f hs h hf
  obtain ⟨_, ⟨_, _, rfl⟩ | ⟨_, _, rfl⟩ | ⟨_, i, _, hi⟩⟩ := step_cases h
  · exact State.recordFault_of_fault_eq hf
  · exact State.recordFault_of_fault_eq hf
  · exact exec_eq_recordFault hi hs hf

/-- Settles O7: the step answers the recorded error before it fetches, so the host's step leaves the state. -/
theorem faultedCoreIsAbsorbing : Obligations.FaultedCoreIsAbsorbing := by
  intro s f hf
  have hstep : step s = .fault f := step_of_faulted hf
  have hkept : s.afterStep = s := State.afterStep_of_fault hstep
  have hreply : HostAction.reply s .step = s.afterStep.report := rfl
  exact ⟨hstep, by rw [hreply, hkept, State.report_of_faulted hf], hkept, tick_of_faulted hf⟩

/-! ### An image refused (R206, R241) -/

/-- The record of a refused image, the length of one that is too long and none of one that is missing. -/
theorem initCore_of_refused {s : State} (p : Option (List Byte))
    (h : ∀ n, p.map List.length = some n → s.params.memSize < s.params.programBase.toNat + n) :
    s.initCore p = s.recordFault (.programLoadFailure (p.map List.length)) := by
  cases p with
  | none => rfl
  | some image => exact initCore_of_too_long (h image.length rfl)

/-- Settles O44: either refusal records the error, which the reply and the next step read. -/
theorem initializeRefusesImage : Obligations.InitializeRefusesImage := by
  rintro s p _ rfl hlong
  have hinit := initCore_of_refused p hlong
  have hfault : (s.initCore p).fault = some (.programLoadFailure (p.map List.length)) := by rw [hinit]; rfl
  exact ⟨hinit, State.report_of_faulted hfault, step_of_faulted hfault⟩

/-! ### What the host observes and consumes (R216 to R219) -/

theorem unchangedBut_markConsumed (s : State) : UnchangedBut [.dirty] s s.markConsumed :=
  (unchangedBut_display s s.fb false).restored fun _ _ => rfl

/-- Settles O41: the two reads return the state they leave, and the two writes are one of dirty and one of a slot. -/
theorem hostObservesAndConsumes : Obligations.HostObservesAndConsumes := fun s k p =>
  ⟨rfl, rfl, rfl, rfl, rfl, unchangedBut_markConsumed s, fun j => s.keyDown_setSlot k j p, unchangedBut_setSlot s k p⟩

end Sys2Proof.Machine
